-- ==== Sys2Proof/Word.lean ====
section
/-! DEFINITION. The word type of the block and the readings of a word (00_scope.md R6, R8, R9). -/

namespace Sys2Proof

/-- A data word: 32 bits, bit 0 the least significant (R6 `W`, R8). -/
abbrev Word := BitVec 32

/-- A byte of the host serializer's buffers (20_memory.md R211). -/
abbrev Byte := BitVec 8

/-- `s32(w)`: the word read in two's complement, in [-2^31, 2^31) (R9). -/
def s32 (w : Word) : Int := w.toInt

/-- `u32(w)`: the word read as an unsigned integer, in [0, 2^32) (R9). -/
def u32 (w : Word) : Int := w.toNat

/-- The word that stores the integer `x`: the one way a value enters a word.  Its signed reading is R9's
`wrap32(x)`, which is the lemma `s32_wrap32` of Laws/Arith.lean. -/
def wrap32 (x : Int) : Word := BitVec.ofInt 32 x

/-- Seventeen words: the ARG file, the RES file, a public-key row and a ciphertext chunk (R6 `ROW_LEN`). -/
abbrev Row := Vector Word 17

/-- The row `(0, 0, ..., 0)`. -/
def zeroRow : Row := Vector.replicate 17 0

end Sys2Proof
end

