-- ==== Sys2Proof/Config.lean ====
section
/-! DEFINITION. The constants of the hardware (00_scope.md R6) and its open parameters (R7): DRAW, LATENCY and BASE,
with the value a RES read answers while the engine is busy (20_memory.md R207).  The open ones are opaque
constants with no body, so nothing can be proved of a value of theirs. -/

namespace Sys2Proof

/-! ## Constants of R6 -/

/-- KEY_LO: least secret-key entry and masking coefficient. -/
abbrev Config.keyLo : Int := -4096
/-- KEY_HI: every secret-key entry and masking coefficient lies below it. -/
abbrev Config.keyHi : Int := 4096
/-- MOD_LO: least drawn modulus. -/
abbrev Config.modLo : Int := 11120640
/-- MOD_HI: every drawn modulus lies below it. -/
abbrev Config.modHi : Int := 111206400
/-- MAX_CHR: the divisor that gives `add`. -/
abbrev Config.maxChr : Int := 1114111
/-- FUZZ_DIV: `fuzz = add / 10`. -/
abbrev Config.fuzzDiv : Int := 10
/-- REP_LO: least repetition count of an encryption. -/
abbrev Config.repLo : Int := 2
/-- REP_HI: every repetition count lies below it. -/
abbrev Config.repHi : Int := 5
/-- SAMPLE_ROWS: the rows an encryption samples from are those below it. -/
abbrev Config.sampleRows : Int := 160
/-- DIM: the length of the secret vector, and the only legal `dim` field. -/
abbrev Config.dim : Int := 16

/-! ## Open parameters -/

/-- DRAW (R7, 10_state.md R112, decision D14): the random source.  The n-th draw of the machine is made from the
natural number `drawSource n`, on which nothing is assumed; `draw` of Machine/Arith.lean brings it into the range
asked for.  Log entry 1. -/
opaque Config.drawSource : Nat → Nat

/-- LATENCY (R7, 70_reset_and_hazards.md R820, decision D15): how many host accesses reach the window between an
issue and its completion.  Finite, and nothing else is known of it.  Log entry 2. -/
opaque Config.latency : Nat → Nat

/-- The word a host read of a RES word answers while BUSY = 1: any 32-bit value, possibly another at each read
(20_memory.md R207, decision D17).  Log entry 3. -/
opaque Config.busyRead : Nat → Word

/-- The 4 KiB page of the host bus on which the register window stands (R7, decision D2).  Log entry 4. -/
opaque Config.windowPage : Nat

/-- BASE, the host-bus address of the window's offset 0: aligned to 4096 bytes, otherwise open (20_memory.md R201). -/
def Config.base : Nat := 4096 * Config.windowPage

end Sys2Proof
end

