-- ==== Sys2Proof/Syntax.lean ====
section
/-! DEFINITION. The ten commands of VCORE-1 (30_encoding.md R304; spec/opcode_table.json, one constructor a row). -/

namespace Sys2Proof

/-- A command.  `idx` is the IDX field, the only immediate: an unscaled word index (R302). -/
inductive Instr where
  /-- NOP: 44_key_access_and_control.md R600. -/
  | nop
  /-- MODRED: 40_modular_reduction.md R420. -/
  | modred
  /-- SKGEN: 41_key_generation.md R450. -/
  | skgen
  /-- PKGEN: 41_key_generation.md R460. -/
  | pkgen
  /-- ENCCHAR: 42_encryption.md R500. -/
  | encchar
  /-- DECCHUNK: 43_decryption.md R550. -/
  | decchunk
  /-- RDSK idx: 44_key_access_and_control.md R610. -/
  | rdsk (idx : Nat)
  /-- WRSK idx: 44_key_access_and_control.md R611. -/
  | wrsk (idx : Nat)
  /-- RDPK idx: 44_key_access_and_control.md R620. -/
  | rdpk (idx : Nat)
  /-- WRPK idx: 44_key_access_and_control.md R621. -/
  | wrpk (idx : Nat)
  deriving DecidableEq, Repr

/-- The mnemonic of R304. -/
def Instr.mnemonic : Instr → String
  | .nop => "NOP"
  | .modred => "MODRED"
  | .skgen => "SKGEN"
  | .pkgen => "PKGEN"
  | .encchar => "ENCCHAR"
  | .decchunk => "DECCHUNK"
  | .rdsk _ => "RDSK"
  | .wrsk _ => "WRSK"
  | .rdpk _ => "RDPK"
  | .wrpk _ => "WRPK"

/-- The word index of a command that has one. -/
def Instr.index? : Instr → Option Nat
  | .nop => none
  | .modred => none
  | .skgen => none
  | .pkgen => none
  | .encchar => none
  | .decchunk => none
  | .rdsk idx => some idx
  | .wrsk idx => some idx
  | .rdpk idx => some idx
  | .wrpk idx => some idx

/-- A command as a host program writes it (R310): the mnemonic, then the index in decimal. -/
def Instr.text (i : Instr) : String :=
  match i.index? with
  | none => i.mnemonic
  | some idx => i.mnemonic ++ " " ++ toString idx

end Sys2Proof
end

