-- ==== Sys2Proof/WellFormed.lean ====
section
/-! DEFINITION. Which terms of `Instr` a command word can hold: IDX is sixteen bits wide (30_encoding.md R301, R302).
An index beyond a key's last word is well formed: it decodes, and raises ERR_INDEX when it is executed (R302). -/

namespace Sys2Proof

/-- The values of a 16-bit field (R302: "an unsigned integer in [0, 65535]"). -/
def fitsIdx (idx : Nat) : Bool := decide (idx < 65536)

/-- The command has a command word. -/
def Instr.wellFormed : Instr → Bool
  | .nop => true
  | .modred => true
  | .skgen => true
  | .pkgen => true
  | .encchar => true
  | .decchunk => true
  | .rdsk idx => fitsIdx idx
  | .wrsk idx => fitsIdx idx
  | .rdpk idx => fitsIdx idx
  | .wrpk idx => fitsIdx idx

end Sys2Proof
end

