-- ==== Sys2Proof/Decode.lean ====
section
/-! DEFINITION. The command decoder, total on every 32-bit word and rejecting by name (30_encoding.md R301, R304, R305,
R306), and the encoder written from the same tables (R304, R310). -/

namespace Sys2Proof

/-- OP, bits 7:0 (R301). -/
def opField (w : Word) : Nat := (w.extractLsb' 0 8).toNat

/-- RSV, bits 15:8 (R301). -/
def rsvField (w : Word) : Nat := (w.extractLsb' 8 8).toNat

/-- IDX, bits 31:16, zero-extended (R301, R302). -/
def idxField (w : Word) : Nat := (w.extractLsb' 16 16).toNat

/-- Why a word is ILLEGAL (R306). -/
inductive Illegal where
  /-- RSV is not 0. -/
  | reservedNonzero
  /-- IDX is not 0 and OP is one of 0x00-0x05. -/
  | indexNonzero
  /-- OP is one of 0x0A-0xFF. -/
  | opcodeUnassigned
  deriving DecidableEq, Repr

/-- What `decode` returns: a command, or R305's ILLEGAL with its reason. -/
inductive Decoded where
  | command (i : Instr)
  | illegal (why : Illegal)
  deriving DecidableEq, Repr

/-- A command whose IDX must be 0 (R301). -/
def withoutIndex (idx : Nat) (i : Instr) : Decoded :=
  if idx ≠ 0 then .illegal .indexNonzero else .command i

/-- R305's case over OP, after the RSV check. -/
def decodeOp (op idx : Nat) : Decoded :=
  match op with
  | 0x00 => withoutIndex idx .nop
  | 0x01 => withoutIndex idx .modred
  | 0x02 => withoutIndex idx .skgen
  | 0x03 => withoutIndex idx .pkgen
  | 0x04 => withoutIndex idx .encchar
  | 0x05 => withoutIndex idx .decchunk
  | 0x06 => .command (.rdsk idx)
  | 0x07 => .command (.wrsk idx)
  | 0x08 => .command (.rdpk idx)
  | 0x09 => .command (.wrpk idx)
  | _ => .illegal .opcodeUnassigned

/-- `decode(w)` of R305. -/
def decode (w : Word) : Decoded :=
  if rsvField w ≠ 0 then .illegal .reservedNonzero else decodeOp (opField w) (idxField w)

/-- The operation code of R304. -/
def Instr.opcode : Instr → Nat
  | .nop => 0x00
  | .modred => 0x01
  | .skgen => 0x02
  | .pkgen => 0x03
  | .encchar => 0x04
  | .decchunk => 0x05
  | .rdsk _ => 0x06
  | .wrsk _ => 0x07
  | .rdpk _ => 0x08
  | .wrpk _ => 0x09

/-- A command word from its fields: R310's `(idx << 16) | OP`. -/
def commandWord (op idx : Nat) : Word :=
  (BitVec.ofNat 32 idx <<< 16) ||| BitVec.ofNat 32 op

/-- The command word of a well-formed command (R310). -/
def encode (i : Instr) : Word := commandWord i.opcode (i.index?.getD 0)

/-- The word whose low `nbits` bits are those of `w`, and whose other bits are 0. -/
def tableWord (nbits w : Nat) : Word := BitVec.ofNat 32 (w % 2 ^ nbits)

/-- The command `decode` reads from a row of spec/opcode_table.json: every command is one 32-bit word (R300). -/
def decodeTableWord (nbits w : Nat) : Option Instr :=
  match decode (tableWord nbits w) with
  | .command i => some i
  | .illegal _ => none

end Sys2Proof
end

