-- ==== Sys2Proof/Machine/State.lean ====
section
/-! DEFINITION. The state of the block as plain data (10_state.md), the host's side of the register window, and the
state after reset (R113). -/

namespace Sys2Proof.Machine

/-- The error codes of 60_exceptions.md R701.  Codes 6 to 15 are never produced, and have no constructor. -/
inductive ErrCode where
  /-- ERR_NONE, 0. -/
  | noError
  /-- ERR_ILLEGAL, 1. -/
  | illegal
  /-- ERR_INDEX, 2. -/
  | index
  /-- ERR_PARAM, 3. -/
  | param
  /-- ERR_BADCHAR, 4. -/
  | badChar
  /-- ERR_SCALAR, 5. -/
  | scalar
  deriving DecidableEq, Repr

/-- The fields of STATUS (R109).  Software only reads STATUS, and its other bits read as 0, so the fields are all of it:
`Status.toWord` of Machine/Flags.lean is the word read. -/
structure Status where
  /-- BUSY, bit 0: the engine phase (R111: BUSY, or IDLE). -/
  busy : Bool
  /-- DONE, bit 1. -/
  done : Bool
  /-- ERR, bits 7:4. -/
  err : ErrCode
  /-- OVR, bit 8, sticky. -/
  ovr : Bool
  deriving DecidableEq, Repr

/-- The SK file: one SecretKey in the field order of R103, SK[0..15], SK[16], SK[17], SK[18]. -/
structure SecretKey where
  key : Vector Word 16
  modulo : Word
  add : Word
  dim : Word
  deriving DecidableEq, Repr

/-- The PK store: one PublicKey in the field order of R104.  PK[0..2889] are held as the 170 rows of 17 words that R105
names (word `17·r + c` is word `c` of row `r`), then PK[2890], PK[2891], PK[2892]. -/
structure PublicKey where
  rows : Vector Row 170
  modulo : Word
  add : Word
  dim : Word
  deriving DecidableEq, Repr

/-- The width of a host access.  Only 32 bits is admitted (20_memory.md R203). -/
inductive AccessWidth where
  | bits8
  | bits16
  | bits32
  | bits64
  deriving DecidableEq, Repr

/-- What the outside world does to the block, one at a time and in order (20_memory.md R214). -/
inductive HostEvent where
  /-- A load of the host at a bus address. -/
  | read (addr : Nat) (width : AccessWidth)
  /-- A store of the host at a bus address.  The data of a store that is not 32 bits wide never reaches a register. -/
  | write (addr : Nat) (width : AccessWidth) (value : Word)
  /-- WAIT of 30_encoding.md R311: the host repeats the 32-bit read of STATUS until bit 0 reads 0. -/
  | wait
  /-- RST is asserted (70_reset_and_hazards.md R801). -/
  | assertReset
  /-- RST is deasserted (R801). -/
  | deassertReset
  deriving DecidableEq, Repr

/-- What the block answers to a host access. -/
inductive HostResponse where
  /-- The word a load read. -/
  | data (value : Word)
  /-- A store was taken by the window (stored, ignored or lost, as the register's rule says). -/
  | written
  /-- The bus error of 20_memory.md R203: the fault of the host agent, with no effect on the block. -/
  | busError
  deriving DecidableEq, Repr

/-- The state.  The first group is the spec's, the second the model's own (log entries 1, 2 and 5). -/
structure State where
  /-- ARG[0..16] (R101). -/
  arg : Row
  /-- RES[0..16] (R102). -/
  res : Row
  /-- SK[0..18] (R103). -/
  sk : SecretKey
  /-- PK[0..2892] (R104). -/
  pk : PublicKey
  /-- CUR, the latched command word (R108, R111). -/
  cur : Word
  /-- STATUS (R109); its BUSY is the engine phase (R111). -/
  status : Status
  /-- The level of the reset input RST (70_reset_and_hazards.md R801). -/
  rst : Bool
  /-- How many pending host events still come before the running command completes.  The model's own: R820's finite
  and unbounded latency. -/
  latency : Nat
  /-- The index of the next free value.  The model's own. -/
  fresh : Nat
  /-- What the outside world has still to do, oldest first.  The model's own: an input of the machine. -/
  pending : List HostEvent
  /-- What the block has answered, newest first.  The model's own: an output of the machine. -/
  responses : List HostResponse
  deriving DecidableEq, Repr

/-- Why the machine stops with a fault.  There is no such reason on this hardware, so the type has no constructor: an
error of a command ends that command with a code in STATUS and leaves the engine IDLE (60_exceptions.md R710, R712), and
a host access the window does not admit is answered with a bus error and changes nothing (R721). -/
inductive Fault where
  deriving DecidableEq, Repr

/-- Why a step has no meaning. -/
inductive Refusal where
  /-- Raised by an arm of `exec` for a command that has no meaning yet; safe.  No arm raises it. -/
  | notModelled (mnemonic : String)
  deriving DecidableEq, Repr

/-- SK at reset: every word 0 (R113). -/
def SecretKey.reset : SecretKey :=
  { key := Vector.replicate 16 0, modulo := 0, add := 0, dim := 0 }

/-- PK at reset: every word 0 (R113). -/
def PublicKey.reset : PublicKey :=
  { rows := Vector.replicate 170 zeroRow, modulo := 0, add := 0, dim := 0 }

/-- STATUS at reset: 0x00000000 (R113). -/
def Status.reset : Status :=
  { busy := false, done := false, err := .noError, ovr := false }

/-- The state right after reset (R113, 70_reset_and_hazards.md R801): RST deasserted, every register 0, the engine IDLE.
The model's own fields start at 0 and empty (log entry 5). -/
def State.reset : State :=
  { arg := zeroRow, res := zeroRow, sk := SecretKey.reset, pk := PublicKey.reset, cur := 0, status := Status.reset,
    rst := false, latency := 0, fresh := 0, pending := [], responses := [] }

end Sys2Proof.Machine
end

