-- ==== Sys2Proof/Machine/Arith.lean ====
section
/-! DEFINITION. The arithmetic every command uses, said once (40_modular_reduction.md R400-R409, 42_encryption.md R501,
41_key_generation.md R461) and the random source's draw (00_scope.md R12). -/

namespace Sys2Proof.Machine

/-- `tdiv(a, b)`: integer division truncated toward zero (00_scope.md R10). -/
def tdiv (a b : Int) : Int := Int.tdiv a b

/-- `modulus(num, m) = num - m * floor(num ÷ m)` of the MRE, exact (R403). -/
def modulus (num m : Int) : Int := num - m * Int.fdiv num m

/-- `dot16(K, V)` of the MMA: sixteen products summed and wrapped once; word 16 of `V` takes no part (R405). -/
def dot16 (K : Vector Word 16) (V : Row) : Word :=
  wrap32 (∑ i : Fin 16, s32 K[i] * s32 V[i.castSucc])

/-- `rowadd(U, V)` of the MMA: all 17 words added, each wrapped (R406). -/
def rowadd (U V : Row) : Row := Vector.ofFn fun c : Fin 17 => wrap32 (s32 U[c] + s32 V[c])

/-- `KEYOK(modulo, add, dim)` (R407). -/
abbrev KeyOk (modulo add dim : Word) : Prop := 0 < s32 modulo ∧ 0 < s32 add ∧ s32 dim = Config.dim

/-- `IsScalar(v)`: the Unicode scalar values (R408). -/
abbrev IsScalar (v : Int) : Prop := 0 ≤ v ∧ v ≤ 0x10FFFF ∧ ¬ (0xD800 ≤ v ∧ v ≤ 0xDFFF)

/-- `round_half_up(value, add) = floor((2*value + add) ÷ (2*add))` of the DEC unit (R409). -/
def roundHalfUp (value add : Int) : Int := Int.fdiv (2 * value + add) (2 * add)

/-- `encode_scale(v, add) = wrap32(v · add)` of the CES (R501). -/
def encodeScale (v add : Int) : Word := wrap32 (v * add)

/-- `Draw(lo, hi)` made from the raw number `raw`: an integer n with `lo <= n < hi`, and every such integer for some
`raw` (00_scope.md R12, 10_state.md R112). -/
def draw (raw : Nat) (lo hi : Int) : Int := lo + ((raw % (hi - lo).toNat : Nat) : Int)

/-- `noise(fuzz)`: `Draw(-fuzz, fuzz)` when `fuzz >= 1`, and 0 when `fuzz = 0` (41_key_generation.md R461). -/
def noise (raw : Nat) (fuzz : Int) : Int := if 1 ≤ fuzz then draw raw (-fuzz) fuzz else 0

end Sys2Proof.Machine
end

