-- ==== Sys2Proof/Machine/Flags.lean ====
section
/-! DEFINITION. STATUS: the word software reads and the ways its fields change (10_state.md R108, R109, R110;
60_exceptions.md R701, R710; 44_key_access_and_control.md R600; 70_reset_and_hazards.md R811). -/

namespace Sys2Proof.Machine

/-- The number of an error code (R701). -/
def ErrCode.code : ErrCode → Nat
  | .noError => 0
  | .illegal => 1
  | .index => 2
  | .param => 3
  | .badChar => 4
  | .scalar => 5

/-- The STATUS word: BUSY in bit 0, DONE in bit 1, ERR in bits 7:4, OVR in bit 8, every other bit 0 (R109). -/
def Status.toWord (t : Status) : Word :=
  BitVec.ofBool t.ovr ++ BitVec.ofNat 4 t.err.code ++ (0 : BitVec 2) ++ BitVec.ofBool t.done ++ BitVec.ofBool t.busy
    |>.zeroExtend 32

/-- BUSY of a STATUS word, as WAIT reads it (30_encoding.md R311). -/
def busyBit (w : Word) : Bool := w.getLsbD 0

/-- ERR of a STATUS word, `st[7:4]` (30_encoding.md R320). -/
def errField (w : Word) : Nat := (w.extractLsb' 4 4).toNat

/-- STATUS at the issue of a command: BUSY = 1, DONE = 0, ERR = 0, OVR unchanged (R108). -/
def Status.issued (t : Status) : Status := { t with busy := true, done := false, err := .noError }

/-- STATUS at the completion of a command: BUSY = 0, DONE = 1, ERR = code, OVR unchanged (R110, R710). -/
def Status.completed (t : Status) (code : ErrCode) : Status := { t with busy := false, done := true, err := code }

/-- STATUS after a host write was lost: OVR = 1 (R811). -/
def Status.overrun (t : Status) : Status := { t with ovr := true }

/-- STATUS.OVR <- 0, NOP's effect (R600). -/
def Status.clearOverrun (t : Status) : Status := { t with ovr := false }

end Sys2Proof.Machine
end

