-- ==== Sys2Proof/Machine/Operands.lean ====
section
/-! DEFINITION. The index spaces of the two keys (20_memory.md R200 spaces 2 and 3) over the fields of State: word `idx`
of the SK file and of the PK store, read and written, and the row view (10_state.md R103, R104, R105). -/

namespace Sys2Proof.Machine

/-- `SK[idx]`; none beyond word 18 (R103). -/
def SecretKey.word? (k : SecretKey) (idx : Nat) : Option Word :=
  if h : idx < 16 then some k.key[idx]
  else if idx = 16 then some k.modulo
  else if idx = 17 then some k.add
  else if idx = 18 then some k.dim
  else none

/-- `SK[idx] <- v`; none beyond word 18 (R103). -/
def SecretKey.setWord? (k : SecretKey) (idx : Nat) (v : Word) : Option SecretKey :=
  if h : idx < 16 then some { k with key := k.key.set idx v }
  else if idx = 16 then some { k with modulo := v }
  else if idx = 17 then some { k with add := v }
  else if idx = 18 then some { k with dim := v }
  else none

/-- `PKROW(r)` (R105). -/
def PublicKey.row (k : PublicKey) (r : Nat) : Row := k.rows.getD r zeroRow

/-- `PK[idx]`, `PK[17·r + c]` being word `c` of row `r`; none beyond word 2892 (R104, R105). -/
def PublicKey.word? (k : PublicKey) (idx : Nat) : Option Word :=
  if h : idx < 2890 then some (k.rows[idx / 17])[idx % 17]
  else if idx = 2890 then some k.modulo
  else if idx = 2891 then some k.add
  else if idx = 2892 then some k.dim
  else none

/-- `PK[idx] <- v`; none beyond word 2892 (R104, R105). -/
def PublicKey.setWord? (k : PublicKey) (idx : Nat) (v : Word) : Option PublicKey :=
  if h : idx < 2890 then some { k with rows := k.rows.set (idx / 17) ((k.rows[idx / 17]).set (idx % 17) v) }
  else if idx = 2890 then some { k with modulo := v }
  else if idx = 2891 then some { k with add := v }
  else if idx = 2892 then some { k with dim := v }
  else none

/-- A whole number below 17 read as a word index of a row. -/
def rowIndex (i : Nat) : Fin 17 := ⟨i % 17, Nat.mod_lt _ (by decide)⟩

end Sys2Proof.Machine
end

