-- ==== Sys2Proof/Machine/Ops.lean ====
section
/-! DEFINITION. The shared operations: how a command ends (commit, and the error completion), how it is issued, the
register window as the host sees it, and the reset input. -/

namespace Sys2Proof.Machine

/-! ## How a command ends -/

/-- `raise CmdError(code)`: the one error entry of the block.  The completion writes STATUS ← BUSY = 0, DONE = 1,
ERR = code, OVR unchanged, and nothing else (60_exceptions.md R710, 00_scope.md R12). -/
def raiseCmdError (code : ErrCode) (s : State) : Host.Outcome State Fault Refusal :=
  .next { s with status := s.status.completed code }

/-- `commit`: all writes of the command become visible together with STATUS ← BUSY = 0, DONE = 1, ERR = ERR_NONE
(10_state.md R110).  `s` is the state with the command's writes made. -/
def commit (s : State) : Host.Outcome State Fault Refusal :=
  .next { s with status := s.status.completed .noError }

/-- The issue of the command word `w` by a CMD write while BUSY = 0: `w` is latched in CUR and STATUS becomes BUSY = 1,
DONE = 0, ERR = 0, OVR unchanged (10_state.md R108).  There is no return from an error: this is what clears its code
(60_exceptions.md R711).  The latency of the command is a free value (70_reset_and_hazards.md R820, log entry 2). -/
def issue (w : Word) (s : State) : State :=
  { s with cur := w, status := s.status.issued, latency := Config.latency s.fresh, fresh := s.fresh + 1 }

/-! ## The register window -/

/-- A register of the window (20_memory.md R202). -/
inductive WindowReg where
  | cmd
  | status
  | arg (i : Fin 17)
  | res (i : Fin 17)
  | reserved
  deriving DecidableEq, Repr

/-- The register at an offset that is a multiple of 4 (R202). -/
def windowReg (off : Nat) : WindowReg :=
  if off = 0x000 then .cmd
  else if off = 0x004 then .status
  else if 0x040 ≤ off ∧ off < 0x084 then .arg (rowIndex ((off - 0x040) / 4))
  else if 0x0C0 ≤ off ∧ off < 0x104 then .res (rowIndex ((off - 0x0C0) / 4))
  else .reserved

/-- The byte offset of ARG[i] (R202). -/
def argOffset (i : Nat) : Nat := 0x040 + 4 * i

/-- The byte offset of RES[i] (R202). -/
def resOffset (i : Nat) : Nat := 0x0C0 + 4 * i

/-- `MemRead(off, 4)`: what the host reads, and the state after it.  A read has no side effect on the block (R205, R206,
R207, R208).  A RES word read while BUSY = 1 is a free value, another at each read: `fresh` advances (R207).  While RST
is asserted every read answers 0 (70_reset_and_hazards.md R801). -/
def memRead (off : Nat) (s : State) : Word × State :=
  if s.rst then (0, s)
  else
    match windowReg off with
    | .cmd => (0, s)
    | .status => (s.status.toWord, s)
    | .arg i => (s.arg[i], s)
    | .res i => if s.status.busy then (Config.busyRead s.fresh, { s with fresh := s.fresh + 1 }) else (s.res[i], s)
    | .reserved => (0, s)

/-- `MemWrite(off, 4, v)`.  A write to CMD issues a command and a write to ARG stores the word; while BUSY = 1 either is
ignored and sets OVR (10_state.md R108, 20_memory.md R206, 70_reset_and_hazards.md R811).  A write to STATUS, to a RES
word or to a reserved offset is ignored (R204, R205), and so is every write while RST is asserted (R801). -/
def memWrite (off : Nat) (v : Word) (s : State) : State :=
  if s.rst then s
  else
    match windowReg off with
    | .cmd => if s.status.busy then { s with status := s.status.overrun } else issue v s
    | .status => s
    | .arg i => if s.status.busy then { s with status := s.status.overrun } else { s with arg := s.arg.set i v }
    | .res _ => s
    | .reserved => s

/-- The offset of a host-bus address in the 4 KiB window at BASE; none outside it (20_memory.md R200, R201, R212). -/
def windowOffset (addr : Nat) : Option Nat :=
  if Config.base ≤ addr ∧ addr < Config.base + 0x1000 then some (addr - Config.base) else none

/-- The window admits 32-bit accesses at offsets that are multiples of 4, and no other (R203). -/
def admitted (off : Nat) (width : AccessWidth) : Bool :=
  match width with
  | .bits32 => off % 4 == 0
  | .bits8 => false
  | .bits16 => false
  | .bits64 => false

/-- The block answers the host. -/
def State.respond (s : State) (r : HostResponse) : State := { s with responses := r :: s.responses }

/-- A load of the host.  Outside the window it is not the block's; inside, what R203 does not admit gets a bus error and
changes nothing. -/
def busRead (addr : Nat) (width : AccessWidth) (s : State) : State :=
  match windowOffset addr with
  | none => s
  | some off =>
    if admitted off width then (memRead off s).2.respond (.data (memRead off s).1) else s.respond .busError

/-- A store of the host, on the same terms. -/
def busWrite (addr : Nat) (width : AccessWidth) (v : Word) (s : State) : State :=
  match windowOffset addr with
  | none => s
  | some off => if admitted off width then (memWrite off v s).respond .written else s.respond .busError

/-! ## The reset input -/

/-- Every register at its reset value, RST at the level `level` (10_state.md R113, 70_reset_and_hazards.md R801).  A
command in progress is abandoned: BUSY = 0, and none of its writes was performed.  The outside world's events, the
answers already given and the index of free values are not the block's registers and stay. -/
def resetRegisters (level : Bool) (s : State) : State :=
  { State.reset with rst := level, fresh := s.fresh, pending := s.pending, responses := s.responses }

/-- RST is deasserted.  Deasserting an RST that is not asserted is no event. -/
def releaseReset (s : State) : State := if s.rst then resetRegisters false s else s

/-! ## One event of the outside world -/

/-- The next event `e` happens, with `rest` pending after it.  WAIT reads STATUS and stays pending as long as BUSY reads
1 (30_encoding.md R311). -/
def hostMove (e : HostEvent) (rest : List HostEvent) (s : State) : State :=
  match e with
  | .read addr width => busRead addr width { s with pending := rest }
  | .write addr width v => busWrite addr width v { s with pending := rest }
  | .wait =>
    if busyBit (memRead 0x004 s).1 then s.respond (.data (memRead 0x004 s).1)
    else ({ s with pending := rest } : State).respond (.data (memRead 0x004 s).1)
  | .assertReset => resetRegisters true { s with pending := rest }
  | .deassertReset => releaseReset { s with pending := rest }

end Sys2Proof.Machine
end

