-- ==== Sys2Proof/Machine/Control.lean ====
section
/-! DEFINITION. NOP (44_key_access_and_control.md R600). -/

namespace Sys2Proof.Machine

/-- NOP: complete without effect and clear the overrun flag (R600). -/
def execNop (s : State) : Host.Outcome State Fault Refusal :=
  commit { s with status := s.status.clearOverrun }

end Sys2Proof.Machine
end

