-- ==== Sys2Proof/Machine/Decryption.lean ====
section
/-! DEFINITION. DECCHUNK (43_decryption.md R550). -/

namespace Sys2Proof.Machine

/-- `value = modulus(wrap32(last - chr_answer), q)` (R550 steps 1 to 3). -/
def decValue (sk : SecretKey) (chunk : Row) : Int :=
  modulus (s32 (wrap32 (s32 chunk[16] - s32 (dot16 sk.key chunk)))) (s32 sk.modulo)

/-- `s = round_half_up(value, add)` (R550 step 4). -/
def decScalar (sk : SecretKey) (chunk : Row) : Int := roundHalfUp (decValue sk chunk) (s32 sk.add)

/-- DECCHUNK: decrypt the chunk in ARG[0..16] with the SK file into RES[0] (R550). -/
def execDecchunk (s : State) : Host.Outcome State Fault Refusal :=
  if KeyOk s.sk.modulo s.sk.add s.sk.dim then
    if IsScalar (decScalar s.sk s.arg) then
      commit { s with res := s.res.set 0 (wrap32 (decScalar s.sk s.arg)) }
    else raiseCmdError .scalar s
  else raiseCmdError .param s

end Sys2Proof.Machine
end

