-- ==== Sys2Proof/Machine/Encryption.lean ====
section
/-! DEFINITION. ENCCHAR (42_encryption.md R500), written over any random source `src`; the command itself takes the
hardware's, `Config.drawSource`. -/

namespace Sys2Proof.Machine

/-- Step 4: the rows `js` of the public key summed from the zero row (R500). -/
def rowSum (pk : PublicKey) (js : List Nat) : Row := js.foldl (fun out j => rowadd out (pk.row j)) zeroRow

/-- The chunk of the character `v` over the sampled rows `js`: word 16 takes `char_num` and is reduced (R500 steps 1 to
5, R501). -/
def encChunk (pk : PublicKey) (v : Int) (js : List Nat) : Row :=
  let out := rowSum pk js
  out.set 16
    (wrap32 (modulus (s32 (wrap32 (s32 out[16] + s32 (encodeScale v (s32 pk.add))))) (s32 pk.modulo)))

/-- The repetition count, `Draw(2, 5)` (R500 step 3). -/
def drawCount (src : Nat → Nat) (n : Nat) : Nat := (draw (src n) Config.repLo Config.repHi).toNat

/-- The sampled row indices, each `Draw(0, 160)` (R500 step 4, R502). -/
def drawRows (src : Nat → Nat) (n : Nat) : Nat → List Nat
  | 0 => []
  | k + 1 => (draw (src n) 0 Config.sampleRows).toNat :: drawRows src (n + 1) k

/-- ENCCHAR with the random source `src`. -/
def execEnccharFrom (src : Nat → Nat) (s : State) : Host.Outcome State Fault Refusal :=
  if KeyOk s.pk.modulo s.pk.add s.pk.dim then
    if IsScalar (u32 s.arg[0]) then
      let r := drawCount src s.fresh
      commit { s with res := encChunk s.pk (u32 s.arg[0]) (drawRows src (s.fresh + 1) r), fresh := s.fresh + 1 + r }
    else raiseCmdError .badChar s
  else raiseCmdError .param s

/-- ENCCHAR: encrypt the scalar value in ARG[0] into RES[0..16] with the PK store (R500). -/
def execEncchar (s : State) : Host.Outcome State Fault Refusal := execEnccharFrom Config.drawSource s

end Sys2Proof.Machine
end

