-- ==== Sys2Proof/Machine/KeyAccess.lean ====
section
/-! DEFINITION. RDSK, WRSK, RDPK and WRPK (44_key_access_and_control.md R610, R611, R620, R621). -/

namespace Sys2Proof.Machine

/-- RDSK idx: RES[0] <- SK[idx]; ERR_INDEX beyond word 18 (R610). -/
def execRdsk (idx : Nat) (s : State) : Host.Outcome State Fault Refusal :=
  match s.sk.word? idx with
  | none => raiseCmdError .index s
  | some w => commit { s with res := s.res.set 0 w }

/-- WRSK idx: SK[idx] <- ARG[0], the word stored unchanged; ERR_INDEX beyond word 18 (R611). -/
def execWrsk (idx : Nat) (s : State) : Host.Outcome State Fault Refusal :=
  match s.sk.setWord? idx s.arg[0] with
  | none => raiseCmdError .index s
  | some k => commit { s with sk := k }

/-- RDPK idx: RES[0] <- PK[idx]; ERR_INDEX beyond word 2892 (R620). -/
def execRdpk (idx : Nat) (s : State) : Host.Outcome State Fault Refusal :=
  match s.pk.word? idx with
  | none => raiseCmdError .index s
  | some w => commit { s with res := s.res.set 0 w }

/-- WRPK idx: PK[idx] <- ARG[0], the word stored unchanged; ERR_INDEX beyond word 2892 (R621). -/
def execWrpk (idx : Nat) (s : State) : Host.Outcome State Fault Refusal :=
  match s.pk.setWord? idx s.arg[0] with
  | none => raiseCmdError .index s
  | some k => commit { s with pk := k }

end Sys2Proof.Machine
end

