-- ==== Sys2Proof/Machine/KeyGen.lean ====
section
/-! DEFINITION. SKGEN and PKGEN (41_key_generation.md R450, R460).  Each is written over any random source `src`; the
command itself takes the hardware's, `Config.drawSource` (00_scope.md R7: DRAW is a model argument). -/

namespace Sys2Proof.Machine

/-! ## SKGEN -/

/-- The secret key of a modulus and sixteen entries: `add = tdiv(q, 1114111)`, `dim = 16` (R450). -/
def secretKeyOf (q : Int) (k : Vector Int 16) : SecretKey :=
  { key := Vector.ofFn fun i : Fin 16 => wrap32 k[i],
    modulo := wrap32 q, add := wrap32 (tdiv q Config.maxChr), dim := wrap32 Config.dim }

/-- SKGEN's 17 draws, made from the raw numbers `src n`, `src (n+1)`, ...: the modulus, then key[0] to key[15] (R450). -/
def freshSecretKey (src : Nat → Nat) (n : Nat) : SecretKey :=
  secretKeyOf (draw (src n) Config.modLo Config.modHi)
    (Vector.ofFn fun i : Fin 16 => draw (src (n + 1 + i)) Config.keyLo Config.keyHi)

/-- SKGEN with the random source `src`. -/
def execSkgenFrom (src : Nat → Nat) (s : State) : Host.Outcome State Fault Refusal :=
  commit { s with sk := freshSecretKey src s.fresh, fresh := s.fresh + 17 }

/-- SKGEN: construct a fresh secret key in the SK file (R450). -/
def execSkgen (s : State) : Host.Outcome State Fault Refusal := execSkgenFrom Config.drawSource s

/-! ## PKGEN -/

/-- One public-key row: the coefficients `a`, then `modulus(wrap32(dot16(s, a) + e), q)` (R460 steps 1 to 4). -/
def publicRow (sk : SecretKey) (a : Vector Int 16) (e : Int) : Row :=
  let coeffs : Row := Vector.ofFn fun c : Fin 17 => if h : c.val < 16 then wrap32 a[c.val] else 0
  coeffs.set 16 (wrap32 (modulus (s32 (wrap32 (s32 (dot16 sk.key coeffs) + e))) (s32 sk.modulo)))

/-- `fuzz = tdiv(add, 10)` (R460). -/
def fuzzOf (sk : SecretKey) : Int := tdiv (s32 sk.add) Config.fuzzDiv

/-- The row made from the raw numbers `src n` to `src (n+16)`: sixteen coefficients, then the noise (R460, R461). -/
def freshRow (src : Nat → Nat) (sk : SecretKey) (n : Nat) : Row :=
  publicRow sk (Vector.ofFn fun c : Fin 16 => draw (src (n + c)) Config.keyLo Config.keyHi)
    (noise (src (n + 16)) (fuzzOf sk))

/-- The public key derived from `sk`: 170 fresh rows, and modulo, add and dim copied verbatim (R460). -/
def freshPublicKey (src : Nat → Nat) (sk : SecretKey) (n : Nat) : PublicKey :=
  { rows := Vector.ofFn fun r : Fin 170 => freshRow src sk (n + 17 * r),
    modulo := sk.modulo, add := sk.add, dim := sk.dim }

/-- PKGEN with the random source `src`. -/
def execPkgenFrom (src : Nat → Nat) (s : State) : Host.Outcome State Fault Refusal :=
  if KeyOk s.sk.modulo s.sk.add s.sk.dim then
    commit { s with pk := freshPublicKey src s.sk s.fresh, fresh := s.fresh + 2890 }
  else raiseCmdError .param s

/-- PKGEN: derive a fresh public key from the SK file into the PK store (R460). -/
def execPkgen (s : State) : Host.Outcome State Fault Refusal := execPkgenFrom Config.drawSource s

end Sys2Proof.Machine
end

