-- ==== Sys2Proof/Machine/Reduction.lean ====
section
/-! DEFINITION. MODRED (40_modular_reduction.md R420). -/

namespace Sys2Proof.Machine

/-- MODRED: reduce ARG[0] modulo ARG[1] into RES[0]; ERR_PARAM unless ARG[1] is positive (R420). -/
def execModred (s : State) : Host.Outcome State Fault Refusal :=
  if s32 s.arg[1] ≤ 0 then raiseCmdError .param s
  else commit { s with res := s.res.set 0 (wrap32 (modulus (s32 s.arg[0]) (s32 s.arg[1]))) }

end Sys2Proof.Machine
end

