-- ==== Sys2Proof/Machine/Dispatch.lean ====
section
/-! DEFINITION. The meaning of every command: one arm for each constructor of `Instr`. -/

namespace Sys2Proof.Machine

/-- The completion of the command `i`: it reads CUR's operands and commits all its writes at once (10_state.md R110). -/
def exec (i : Instr) (s : State) : Host.Outcome State Fault Refusal :=
  match i with
  | .nop => Sys2Proof.Machine.execNop s
  | .modred => Sys2Proof.Machine.execModred s
  | .skgen => Sys2Proof.Machine.execSkgen s
  | .pkgen => Sys2Proof.Machine.execPkgen s
  | .encchar => Sys2Proof.Machine.execEncchar s
  | .decchunk => Sys2Proof.Machine.execDecchunk s
  | .rdsk idx => Sys2Proof.Machine.execRdsk idx s
  | .wrsk idx => Sys2Proof.Machine.execWrsk idx s
  | .rdpk idx => Sys2Proof.Machine.execRdpk idx s
  | .wrpk idx => Sys2Proof.Machine.execWrpk idx s

end Sys2Proof.Machine
end

