-- ==== Sys2Proof/Machine/Engine.lean ====
section
/-! DEFINITION. The two agents of the machine, the host and the engine, and which of them moves next (00_scope.md R3;
10_state.md R110, R111; 70_reset_and_hazards.md R801, R820). -/

namespace Sys2Proof.Machine

/-- The completion of the latched command: CUR is decoded, and an ILLEGAL word raises ERR_ILLEGAL and does nothing else
(30_encoding.md R305, 60_exceptions.md R702). -/
def completeCommand (s : State) : Host.Outcome State Fault Refusal :=
  match decode s.cur with
  | .command i => exec i s
  | .illegal _ => raiseCmdError .illegal s

/-- The engine has nothing to do: it is IDLE, or RST is asserted (R801, R803). -/
def engineIdle (s : State) : Bool := s.rst || !s.status.busy

/-- The host's next event, if there is one; otherwise nothing happens (R744: the idle state needs no wake-up). -/
def hostTurn (s : State) : State :=
  match s.pending with
  | [] => s
  | e :: rest => hostMove e rest s

/-- One step.  With the engine idle it is the host's turn.  With a command in progress the host's events go on for as long
as its latency lasts, and then, or when the host does nothing, the engine completes it (R820). -/
def advance (s : State) : Host.Outcome State Fault Refusal :=
  if engineIdle s then .next (hostTurn s)
  else
    match s.latency, s.pending with
    | n + 1, e :: rest => .next (hostMove e rest { s with latency := n })
    | _, _ => completeCommand s

end Sys2Proof.Machine
end

