-- ==== Sys2Proof/Machine/Step.lean ====
section
/-! DEFINITION. The step function, and how a command word is placed for the next step. -/

namespace Sys2Proof.Machine

/-- One step of the machine (Machine/Engine.lean). -/
def step (s : State) : Host.Outcome State Fault Refusal := advance s

/-- `s` with the command word issued and at the end of its latency, so that the very next step completes it: CUR holds it,
STATUS is as an issue leaves it (10_state.md R108), no host event comes first, and RST is not asserted (R801). -/
def State.withFetchWord (s : State) (nbits w : Nat) : State :=
  { s with cur := tableWord nbits w, status := s.status.issued, latency := 0, rst := false }

end Sys2Proof.Machine
end

