-- ==== Sys2Proof/Machine/Driver.lean ====
section
/-! DEFINITION. Host software as the spec defines it (30_encoding.md R311, R320-R324): the host statements as events of
the register window, the pseudo-operations as functions that drive the block through `memRead` and `memWrite`, and the
byte layout of keys and ciphertext (20_memory.md R210, R211).  The host's own variables and jumps are not state of the
block (R311: "the block sees none of it"). -/

namespace Sys2Proof.Machine

/-! ## Byte layout -/

/-- Byte `k` of a word: bits 8k+7 to 8k (R210). -/
def byteLane (w : Word) (k : Nat) : Byte := w.extractLsb' (8 * k) 8

/-- A word as four bytes, little-endian (R211). -/
def bytesOfWord (w : Word) : List Byte := [byteLane w 0, byteLane w 1, byteLane w 2, byteLane w 3]

/-- Words in order, each little-endian, with no padding and no length (R211). -/
def bytesOfWords (ws : List Word) : List Byte := ws.flatMap bytesOfWord

/-- The words of a buffer whose length is a multiple of 4. -/
def wordsOfBytes : List Byte → List Word
  | b0 :: b1 :: b2 :: b3 :: rest => (b3 ++ b2 ++ b1 ++ b0) :: wordsOfBytes rest
  | _ => []

/-! ## Host statements (R311) -/

/-- The statements of a host program that touch the block (R311). -/
inductive HostStmt where
  /-- `ARG i, v`. -/
  | arg (i : Nat) (v : Int)
  /-- `CMD <command>`, the command as its word. -/
  | cmd (w : Word)
  /-- `WAIT`. -/
  | wait
  /-- `READ RES i -> name`. -/
  | readRes (i : Nat)
  /-- `READ STATUS -> name`. -/
  | readStatus
  deriving DecidableEq, Repr

/-- The register-window access a statement makes (R311). -/
def HostStmt.event : HostStmt → HostEvent
  | .arg i v => .write (Config.base + argOffset i) .bits32 (wrap32 v)
  | .cmd w => .write (Config.base + 0x000) .bits32 w
  | .wait => .wait
  | .readRes i => .read (Config.base + resOffset i) .bits32
  | .readStatus => .read (Config.base + 0x004) .bits32

/-! ## Pseudo-operations -/

/-- Why a pseudo-operation fails. -/
inductive HostError where
  /-- LENGTH: a buffer of the wrong length, found before any command is issued (R322, R323). -/
  | length
  /-- A command completed with a nonzero ERR field (R320). -/
  | command (code : Nat)
  deriving DecidableEq, Repr

/-- What a pseudo-operation returns, and the state it leaves. -/
abbrev HostResult (α : Type) := Except HostError α × State

/-- WAIT seen as a whole: when BUSY reads 0 the command in progress has completed (R311, 20_memory.md R214).

DESIGN CHOICE (log entry 14, unsafe): here alone the pseudo-operations let a command complete.  So one begun while BUSY = 1
finds the earlier command in progress until its first WAIT, and loses every ARG and CMD write before it, where R820 would let
that command complete before any of those writes.  `step` has both orders. -/
def waitDone (s : State) : State :=
  if engineIdle s then s
  else
    match completeCommand s with
    | .next t => t
    | .fault r => nomatch r
    | .refused _ => s

/-- `EXEC <command>`: CMD, WAIT, READ STATUS; fails with `st[7:4]` if that is not 0 (R320).  Begun while BUSY = 1, its CMD write
is lost (log entry 14). -/
def hostExec (w : Word) (s : State) : HostResult Unit :=
  let t := waitDone (memWrite 0x000 w s)
  let code := errField (memRead 0x004 t).1
  if code = 0 then (.ok (), t) else (.error (.command code), t)

/-- `READ RES` of `n` words from word `i` on. -/
def readResults (i : Nat) : Nat → State → List Word × State
  | 0, s => ([], s)
  | n + 1, s =>
    let (w, t) := memRead (resOffset i) s
    let (ws, u) := readResults (i + 1) n t
    (w :: ws, u)

/-- `ARG` of the words `ws` from word `i` on. -/
def writeArgs (i : Nat) : List Word → State → State
  | [], s => s
  | w :: ws, s => writeArgs (i + 1) ws (memWrite (argOffset i) w s)

/-- `ENCSTR m -> ct`, `m` a list of scalar values and `ct` the 17·n words of the ciphertext (R321). -/
def encStr : List Int → State → HostResult (List Word)
  | [], s => (.ok [], s)
  | v :: m, s =>
    match hostExec (encode .encchar) (memWrite (argOffset 0) (wrap32 v) s) with
    | (.error e, t) => (.error e, t)
    | (.ok _, t) =>
      let (ws, t') := readResults 0 17 t
      match encStr m t' with
      | (.error e, u) => (.error e, u)
      | (.ok ct, u) => (.ok (ws ++ ct), u)

/-- The chunks of DECBUF: `n` chunks of 17 words (R322 step 3).  `READ RES 0 -> m[j]` reads the word as `s32` (R311). -/
def decChunks : Nat → List Word → State → HostResult (List Int)
  | 0, _, s => (.ok [], s)
  | n + 1, ws, s =>
    match hostExec (encode .decchunk) (writeArgs 0 (ws.take 17) s) with
    | (.error e, t) => (.error e, t)
    | (.ok _, t) =>
      let (w, t') := memRead (resOffset 0) t
      match decChunks n (ws.drop 17) t' with
      | (.error e, u) => (.error e, u)
      | (.ok m, u) => (.ok (s32 w :: m), u)

/-- `DECBUF bytes -> m` (R322). -/
def decBuf (bytes : List Byte) (s : State) : HostResult (List Int) :=
  if bytes.length % 68 ≠ 0 then (.error .length, s) else decChunks (bytes.length / 68) (wordsOfBytes bytes) s

/-- `ARG 0, w_i` and `EXEC <write> i` for the words `ws` from index `i` on (R323). -/
def loadWords (write : Nat → Instr) (i : Nat) : List Word → State → HostResult Unit
  | [], s => (.ok (), s)
  | w :: ws, s =>
    match hostExec (encode (write i)) (memWrite (argOffset 0) w s) with
    | (.error e, t) => (.error e, t)
    | (.ok _, t) => loadWords write (i + 1) ws t

/-- `LOADSK bytes` (R323). -/
def loadSk (bytes : List Byte) (s : State) : HostResult Unit :=
  if bytes.length = 76 then loadWords .wrsk 0 (wordsOfBytes bytes) s else (.error .length, s)

/-- `LOADPK bytes` (R323). -/
def loadPk (bytes : List Byte) (s : State) : HostResult Unit :=
  if bytes.length = 11572 then loadWords .wrpk 0 (wordsOfBytes bytes) s else (.error .length, s)

/-- `EXEC <read> i` and `READ RES 0 -> w_i` for `n` words from index `i` on (R324). -/
def storeWords (read : Nat → Instr) (i : Nat) : Nat → State → HostResult (List Word)
  | 0, s => (.ok [], s)
  | n + 1, s =>
    match hostExec (encode (read i)) s with
    | (.error e, t) => (.error e, t)
    | (.ok _, t) =>
      let (w, t') := memRead (resOffset 0) t
      match storeWords read (i + 1) n t' with
      | (.error e, u) => (.error e, u)
      | (.ok ws, u) => (.ok (w :: ws), u)

/-- The bytes of the words a pseudo-operation returns. -/
def HostResult.bytes : HostResult (List Word) → HostResult (List Byte)
  | (.error e, s) => (.error e, s)
  | (.ok ws, s) => (.ok (bytesOfWords ws), s)

/-- `STORESK -> bytes` (R324). -/
def storeSk (s : State) : HostResult (List Byte) := HostResult.bytes (storeWords .rdsk 0 19 s)

/-- `STOREPK -> bytes` (R324). -/
def storePk (s : State) : HostResult (List Byte) := HostResult.bytes (storeWords .rdpk 0 2893 s)

end Sys2Proof.Machine
end

