-- ==== Sys2Proof/Safety.lean ====
section
/-! DEFINITION. The terms in which claims are made: the legal states, the keys the block itself makes, and a block that is
ready for the host. -/

namespace Sys2Proof.Safety

open Sys2Proof.Machine

/-- STATUS holds a legal value: BUSY = 1 implies DONE = 0 and ERR = 0 (10_state.md R109). -/
def StatusLegal (t : Status) : Prop := t.busy = true → t.done = false ∧ t.err = .noError

/-- Every register of the block holds its reset value (10_state.md R113). -/
def RegistersReset (s : State) : Prop :=
  s.arg = zeroRow ∧ s.res = zeroRow ∧ s.sk = SecretKey.reset ∧ s.pk = PublicKey.reset ∧ s.cur = 0 ∧
    s.status = Status.reset

/-- The machine's invariant: STATUS is legal, and while RST is asserted every register holds its reset value. -/
def StateInv (s : State) : Prop := StatusLegal s.status ∧ (s.rst = true → RegistersReset s)

/-- The host may access the window and issue a command (70_reset_and_hazards.md R801, R810). -/
def Ready (s : State) : Prop := s.rst = false ∧ s.status.busy = false

/-- A command is in progress (10_state.md R111). -/
def Running (s : State) : Prop := s.rst = false ∧ s.status.busy = true

/-- The shape of a key SKGEN makes (41_key_generation.md R451). -/
def SkShape (k : SecretKey) : Prop :=
  (∀ i : Fin 16, -4096 ≤ s32 k.key[i] ∧ s32 k.key[i] < 4096) ∧
    (11120640 ≤ s32 k.modulo ∧ s32 k.modulo < 111206400) ∧
    s32 k.add = Int.tdiv (s32 k.modulo) 1114111 ∧ s32 k.dim = 16

/-- `e` is a value of `noise(fuzz)` (41_key_generation.md R461). -/
def NoiseIn (fuzz e : Int) : Prop := (1 ≤ fuzz → -fuzz ≤ e ∧ e < fuzz) ∧ (fuzz = 0 → e = 0)

/-- `pk` is a public key PKGEN derives from `sk`, `e r` being the noise of row `r` (41_key_generation.md R463). -/
def DerivedWith (sk : SecretKey) (pk : PublicKey) (e : Fin 170 → Int) : Prop :=
  (pk.modulo = sk.modulo ∧ pk.add = sk.add ∧ pk.dim = sk.dim) ∧
    ∀ r : Fin 170,
      (∀ c : Fin 16, -4096 ≤ s32 (pk.row r)[c.castSucc] ∧ s32 (pk.row r)[c.castSucc] < 4096) ∧
      NoiseIn (Int.tdiv (s32 sk.add) 10) (e r) ∧
      s32 (pk.row r)[16] = modulus (s32 (wrap32 (s32 (dot16 sk.key (pk.row r)) + e r))) (s32 sk.modulo)

/-- The two keys are a pair the block itself made: SKGEN's key and a public key PKGEN derived from it. -/
def KeyPair (sk : SecretKey) (pk : PublicKey) : Prop := SkShape sk ∧ ∃ e, DerivedWith sk pk e

/-- The row indices one encryption samples: two to four, each below 160 (42_encryption.md R500, R502). -/
def Sampled (js : List Nat) : Prop := (2 ≤ js.length ∧ js.length ≤ 4) ∧ ∀ j ∈ js, j < 160

/-- The summed noise of the sampled rows (43_decryption.md R551). -/
def noiseSum (e : Fin 170 → Int) (js : List Nat) : Int :=
  (js.map fun j => if h : j < 170 then e ⟨j, h⟩ else 0).sum

end Sys2Proof.Safety
end

