-- ==== Sys2Proof/Certificates/Slice0/Obligations.lean ====
section
/-! DEFINITION. The statements for the provers, from the numbered rules of the spec. -/

open Sys2Proof Sys2Proof.Machine Sys2Proof.Safety

/-! ## Encoding -/

/-- 30_encoding.md R305, R310: no bit of a command word is dropped: every well-formed command, at every index its field
admits, is what its word decodes to. -/
def Obligations.DecodeOfEncodeIsTheCommand : Prop :=
  ∀ i : Instr, i.wellFormed = true → decode (encode i) = .command i

/-- 30_encoding.md R304, R305: each word that decodes to a command is that command's one word. -/
def Obligations.LegalWordIsTheEncodingOfItsCommand : Prop :=
  ∀ (w : Word) (i : Instr), decode w = .command i → i.wellFormed = true ∧ encode i = w

/-- 30_encoding.md R306: which words are illegal, said on the number the word is, that an illegal word raises ERR_ILLEGAL
and does nothing else, and that the all-zero word is NOP. -/
def Obligations.IllegalWordsRaiseErrIllegal : Prop :=
  (∀ w : Word, (∃ why, decode w = .illegal why) ↔
    (0x0A ≤ w.toNat % 256 ∨ w.toNat / 256 % 256 ≠ 0 ∨ (w.toNat % 256 ≤ 0x05 ∧ w.toNat / 65536 ≠ 0))) ∧
  (∀ (s : State) (why : Illegal), decode s.cur = .illegal why →
    completeCommand s = .next { s with status := ⟨false, true, .illegal, s.status.ovr⟩ }) ∧
  decode 0 = .command .nop

/-- 30_encoding.md R310 and 95_test_vectors.md T-ENC: words written out from R301 decode to the commands they stand
for. -/
def Obligations.SpecWordsDecodeAsListed : Prop :=
  decode 0x00000000 = .command .nop ∧ decode 0x00000001 = .command .modred ∧ decode 0x00000002 = .command .skgen ∧
  decode 0x00000003 = .command .pkgen ∧ decode 0x00000004 = .command .encchar ∧ decode 0x00000005 = .command .decchunk ∧
  decode 0x00100006 = .command (.rdsk 16) ∧ decode 0x00110007 = .command (.wrsk 17) ∧
  decode 0x0B4A0008 = .command (.rdpk 2890) ∧ decode 0x0B4C0009 = .command (.wrpk 2892)

/-! ## STATUS, reset and the register window -/

/-- 10_state.md R109, 60_exceptions.md R701: the bits of the STATUS word, reserved bits 3:2 and 31:9 reading 0, and the
number of each error code. -/
def Obligations.StatusWordHasTheFieldsOfItsTable : Prop :=
  ∀ t : Status,
    t.toWord.getLsbD 0 = t.busy ∧ t.toWord.getLsbD 1 = t.done ∧ t.toWord.getLsbD 8 = t.ovr ∧
    t.toWord.getLsbD 2 = false ∧ t.toWord.getLsbD 3 = false ∧ (∀ i, 9 ≤ i → t.toWord.getLsbD i = false) ∧
    t.toWord.toNat / 16 % 16 =
      (match t.err with
        | .noError => 0 | .illegal => 1 | .index => 2 | .param => 3 | .badChar => 4 | .scalar => 5)

/-- 10_state.md R113: the reset values, STATUS as the word software reads, and KEYOK failing on both keys. -/
def Obligations.ResetStateHoldsTheListedValues : Prop :=
  (∀ i : Fin 17, State.reset.arg[i] = 0 ∧ State.reset.res[i] = 0) ∧
  (∀ idx, idx ≤ 18 → State.reset.sk.word? idx = some 0) ∧
  (∀ idx, idx ≤ 2892 → State.reset.pk.word? idx = some 0) ∧
  State.reset.cur = 0 ∧ State.reset.status.busy = false ∧ State.reset.status.toWord = 0 ∧
  ¬ KeyOk State.reset.sk.modulo State.reset.sk.add State.reset.sk.dim ∧
  ¬ KeyOk State.reset.pk.modulo State.reset.pk.add State.reset.pk.dim

/-- 70_reset_and_hazards.md R801: while RST is asserted host writes are ignored, host reads answer 0 and no command runs;
when RST is deasserted every register holds its reset value, a command in progress at the assertion being abandoned.
The fields the model adds (latency, free values, the host's events and answers) are no registers of the block, and nothing
is said of them (log entry 5). -/
def Obligations.ResetInputHoldsAndClearsTheBlock : Prop :=
  (∀ (s : State) (off : Nat) (v : Word), s.rst = true → memWrite off v s = s ∧ memRead off s = (0, s)) ∧
  (∀ s : State, s.rst = true → s.pending = [] → step s = .next s) ∧
  (∀ (s : State) (e : HostEvent) (rest : List HostEvent), s.rst = true → s.pending = e :: rest →
    step s = .next (hostMove e rest s)) ∧
  (∀ (s : State) (rest : List HostEvent), (hostMove .assertReset rest s).rst = true ∧
    (hostMove .assertReset rest s).status.busy = false) ∧
  (∀ (s : State) (rest : List HostEvent), s.rst = true →
    ∃ (latency fresh : Nat) (pending : List HostEvent) (responses : List HostResponse),
      hostMove .deassertReset rest s =
        { State.reset with latency := latency, fresh := fresh, pending := pending, responses := responses })

/-- 20_memory.md R203: an access of another width, or at an offset that is no multiple of 4, gets a bus error and changes
no register, STATUS.OVR included.  While RST is asserted it changes no register either, and what it is answered is the
model's reading (log entry 7). -/
def Obligations.NarrowOrMisalignedAccessGetsBusError : Prop :=
  ∀ (s : State) (off : Nat) (width : AccessWidth) (v : Word) (rest : List HostEvent),
    off < 0x1000 → (width ≠ .bits32 ∨ off % 4 ≠ 0) →
    ∃ answer answer' : HostResponse,
      hostMove (.read (Config.base + off) width) rest s =
        { s with pending := rest, responses := answer :: s.responses } ∧
      hostMove (.write (Config.base + off) width v) rest s =
        { s with pending := rest, responses := answer' :: s.responses } ∧
      (s.rst = false → answer = .busError ∧ answer' = .busError)

/-- 20_memory.md R204, with the offsets R202 calls reserved: they read as 0 and ignore writes. -/
def Obligations.ReservedOffsetsReadZeroIgnoreWrites : Prop :=
  ∀ (s : State) (off : Nat) (v : Word) (rest : List HostEvent), off % 4 = 0 →
    ((0x008 ≤ off ∧ off < 0x040) ∨ (0x084 ≤ off ∧ off < 0x0C0) ∨ (0x104 ≤ off ∧ off < 0x1000)) →
    hostMove (.read (Config.base + off) .bits32) rest s =
      { s with pending := rest, responses := .data 0 :: s.responses } ∧
    hostMove (.write (Config.base + off) .bits32 v) rest s =
      { s with pending := rest, responses := .written :: s.responses }

/-- 20_memory.md R205: a host write to STATUS or to a RES word is ignored, and a host read of CMD returns 0; said of the window
and of the bus events at BASE + offset. -/
def Obligations.StatusAndResultWritesAreIgnored : Prop :=
  ∀ (s : State) (v : Word),
    (memWrite 0x004 v s = s ∧ (∀ i, i < 17 → memWrite (0x0C0 + 4 * i) v s = s) ∧ memRead 0x000 s = (0, s)) ∧
    ∀ rest : List HostEvent,
      hostMove (.write (Config.base + 0x004) .bits32 v) rest s =
        { s with pending := rest, responses := .written :: s.responses } ∧
      (∀ i, i < 17 → hostMove (.write (Config.base + (0x0C0 + 4 * i)) .bits32 v) rest s =
        { s with pending := rest, responses := .written :: s.responses }) ∧
      hostMove (.read (Config.base + 0x000) .bits32) rest s =
        { s with pending := rest, responses := .data 0 :: s.responses }

/-- 20_memory.md R206: writes and reads of ARG words, with RST not asserted (R801 rules while it is), and no host access
changing ARG while a command is in progress; said of the window and of the bus events at BASE + offset. -/
def Obligations.ArgWordsStoreOnlyWhileIdle : Prop :=
  (∀ (s : State) (i : Nat) (h : i < 17) (v : Word), Running s →
    memWrite (0x040 + 4 * i) v s = { s with status := ⟨s.status.busy, s.status.done, s.status.err, true⟩ }) ∧
  (∀ (s : State) (i : Nat) (h : i < 17) (v : Word), Ready s →
    memWrite (0x040 + 4 * i) v s = { s with arg := s.arg.set i v }) ∧
  (∀ (s : State) (i : Nat) (h : i < 17), s.rst = false → memRead (0x040 + 4 * i) s = (s.arg[i], s)) ∧
  (∀ (s : State) (e : HostEvent) (rest : List HostEvent), Running s → Running (hostMove e rest s) →
    (hostMove e rest s).arg = s.arg) ∧
  ∀ (s : State) (i : Nat) (h : i < 17) (v : Word) (rest : List HostEvent),
    (Running s → hostMove (.write (Config.base + (0x040 + 4 * i)) .bits32 v) rest s =
      { s with status := ⟨s.status.busy, s.status.done, s.status.err, true⟩, pending := rest,
               responses := .written :: s.responses }) ∧
    (Ready s → hostMove (.write (Config.base + (0x040 + 4 * i)) .bits32 v) rest s =
      { s with arg := s.arg.set i v, pending := rest, responses := .written :: s.responses }) ∧
    (s.rst = false → hostMove (.read (Config.base + (0x040 + 4 * i)) .bits32) rest s =
      { s with pending := rest, responses := .data s.arg[i] :: s.responses })

/-- 20_memory.md R202, R207: STATUS reads its word and a RES word its value while the engine is idle; while it is busy a RES
read answers a free value, the next one at the next read, and changes no register (log entry 3); said of the window and of
the bus events at BASE + offset. -/
def Obligations.StatusAndResultReadsAnswerTheirRegisters : Prop :=
  ∀ s : State, s.rst = false →
    (memRead 0x004 s = (s.status.toWord, s) ∧
      ∀ (i : Nat) (h : i < 17),
        (s.status.busy = false → memRead (0x0C0 + 4 * i) s = (s.res[i], s)) ∧
        (s.status.busy = true →
          memRead (0x0C0 + 4 * i) s = (Config.busyRead s.fresh, { s with fresh := s.fresh + 1 }))) ∧
    ∀ rest : List HostEvent,
      hostMove (.read (Config.base + 0x004) .bits32) rest s =
        { s with pending := rest, responses := .data s.status.toWord :: s.responses } ∧
      ∀ (i : Nat) (h : i < 17),
        (s.status.busy = false → hostMove (.read (Config.base + (0x0C0 + 4 * i)) .bits32) rest s =
          { s with pending := rest, responses := .data s.res[i] :: s.responses }) ∧
        (s.status.busy = true → hostMove (.read (Config.base + (0x0C0 + 4 * i)) .bits32) rest s =
          { s with fresh := s.fresh + 1, pending := rest,
                   responses := .data (Config.busyRead s.fresh) :: s.responses })

/-- 10_state.md R108: a CMD write while BUSY = 0 latches the word and sets BUSY = 1, DONE = 0, ERR = 0, OVR unchanged; while
BUSY = 1 it is ignored and sets OVR; a read of CMD returns 0.  RST is not asserted (R801 rules while it is).  The latency
and the index of free values are the model's own, and nothing is said of them (log entry 2).  The bus event at BASE is that write. -/
def Obligations.CommandWriteIssuesOrOverruns : Prop :=
  (∀ (s : State) (w : Word), Ready s → ∃ latency fresh : Nat,
    memWrite 0x000 w s =
      { s with cur := w, status := ⟨true, false, .noError, s.status.ovr⟩, latency := latency, fresh := fresh }) ∧
  (∀ (s : State) (w : Word), Running s →
    memWrite 0x000 w s = { s with status := ⟨s.status.busy, s.status.done, s.status.err, true⟩ }) ∧
  (∀ s : State, (memRead 0x000 s).1 = 0) ∧
  (∀ (s : State) (w : Word) (rest : List HostEvent),
    hostMove (.write (Config.base + 0x000) .bits32 w) rest s =
      { memWrite 0x000 w s with pending := rest, responses := .written :: s.responses })

/-- 20_memory.md R200, R212: an access outside the 4 KiB window is not the block's, which neither answers it nor changes (that
it gives no answer is the model's reading, log entry 4). -/
def Obligations.AccessOutsideTheWindowIsNotTheBlocks : Prop :=
  ∀ (s : State) (addr : Nat) (width : AccessWidth) (v : Word) (rest : List HostEvent),
    (addr < Config.base ∨ Config.base + 4096 ≤ addr) →
    hostMove (.read addr width) rest s = { s with pending := rest } ∧
    hostMove (.write addr width v) rest s = { s with pending := rest }

/-- 10_state.md R110, 20_memory.md R214: while a command is in progress, no host event but a reset changes a register
other than STATUS.OVR, and none but a reset ends the command: its writes become visible only at its completion. -/
def Obligations.HostAccessDuringCommandChangesOnlyOverrun : Prop :=
  ∀ (s : State) (e : HostEvent) (rest : List HostEvent), Running s → e ≠ .assertReset →
    ∃ (ovr : Bool) (fresh : Nat) (pending : List HostEvent) (responses : List HostResponse),
      (s.status.ovr = true → ovr = true) ∧
      hostMove e rest s =
        { s with status := ⟨s.status.busy, s.status.done, s.status.err, ovr⟩, fresh := fresh, pending := pending,
                 responses := responses }

/-! ## Arithmetic -/

/-- 40_modular_reduction.md R403: `modulus` as the floor formula over the rationals, its range and its congruence, for
every integer `num` and every positive `m`; within the word ranges the result fits a word. -/
def Obligations.ModulusIsTheCanonicalResidue : Prop :=
  ∀ num m : Int, 0 < m →
    modulus num m = num - m * ⌊(num : ℚ) / (m : ℚ)⌋ ∧ 0 ≤ modulus num m ∧ modulus num m < m ∧
    m ∣ num - modulus num m ∧ (m < 2147483648 → s32 (wrap32 (modulus num m)) = modulus num m)

/-- 40_modular_reduction.md R404: the procedure with two truncated remainders gives `modulus`. -/
def Obligations.ShiftAndReduceAgainIsModulus : Prop :=
  ∀ num m : Int, 0 < m → Int.tmod (Int.tmod num m + m) m = modulus num m

/-- 40_modular_reduction.md R401: wrapping after each addition, in any order, gives the sum wrapped once, and the same for
products. -/
def Obligations.WrappingOnceEqualsWrappingEachTime : Prop :=
  ∀ xs ys : List Int, ys.Perm xs →
    ys.foldl (fun acc x => wrap32 (s32 acc + x)) 0 = wrap32 xs.sum ∧
    ys.foldl (fun acc x => wrap32 (s32 acc * x)) 1 = wrap32 xs.prod

/-- 40_modular_reduction.md R405: exactly the 16 products i = 0 to 15 are summed, wrapping at each step or once; word 16
takes no part. -/
def Obligations.DotProductSumsSixteenProducts : Prop :=
  ∀ (K : Vector Word 16) (V : Row),
    s32 (dot16 K V) = (∑ i : Fin 16, s32 K[i] * s32 V[i.castSucc] + 2147483648) % 4294967296 - 2147483648 ∧
    dot16 K V = (List.finRange 16).foldl (fun acc i => wrap32 (s32 acc + s32 (wrap32 (s32 K[i] * s32 V[i.castSucc])))) 0 ∧
    ∀ v : Word, dot16 K (V.set 16 v) = dot16 K V

/-- 40_modular_reduction.md R406: all 17 words are added, the masking coefficients and the `b` term alike, each sum
wrapped (the sum of two words as bit vectors is that sum). -/
def Obligations.RowSumAddsAllSeventeenWords : Prop :=
  ∀ (U V : Row) (c : Fin 17),
    (rowadd U V)[c] = U[c] + V[c] ∧
    s32 (rowadd U V)[c] = (s32 U[c] + s32 V[c] + 2147483648) % 4294967296 - 2147483648

/-- 40_modular_reduction.md R409: `round_half_up` is the nearest integer to `value ÷ add`, ties up, and the result is in
[0, 2^31). -/
def Obligations.RoundHalfUpIsNearestTiesUp : Prop :=
  ∀ value add : Int, 0 ≤ value → value < 2147483648 → 0 < add →
    roundHalfUp value add = ⌊(value : ℚ) / (add : ℚ) + 1 / 2⌋ ∧
    0 ≤ roundHalfUp value add ∧ roundHalfUp value add < 2147483648

/-- 41_key_generation.md R461, 10_state.md R112: the noise is a draw from [-fuzz, fuzz), any value of which some raw number
gives, and is 0 when fuzz = 0. -/
def Obligations.NoiseTakesExactlyTheValuesOfItsRange : Prop :=
  ∀ fuzz : Int,
    (1 ≤ fuzz → ∀ e : Int, (∃ raw, noise raw fuzz = e) ↔ (-fuzz ≤ e ∧ e < fuzz)) ∧
    (fuzz = 0 → ∀ raw, noise raw fuzz = 0) ∧
    ∀ modulo add dim : Word, KeyOk modulo add dim → 0 ≤ Int.tdiv (s32 add) 10

/-! ## The ten commands -/

/-- 44_key_access_and_control.md R600: NOP's word, its effect and all it leaves, the illegal words with OP = 0x00 not
clearing OVR, NOP alone clearing it, and the example. -/
def Obligations.NopCompletesAndAloneClearsOverrun : Prop :=
  decode 0x00000000 = .command .nop ∧
  (∀ s : State, exec .nop s = .next { s with status := ⟨false, true, .noError, false⟩ }) ∧
  (∀ s : State, s.cur.toNat % 256 = 0 → s.cur ≠ 0 →
    completeCommand s = .next { s with status := ⟨false, true, .illegal, s.status.ovr⟩ }) ∧
  (∀ (i : Instr) (s t : State), i ≠ .nop → exec i s = .next t → t.status.ovr = s.status.ovr) ∧
  (∀ s : State, Running s →
    memWrite 0x000 0x00000000 s = { s with status := ⟨s.status.busy, s.status.done, s.status.err, true⟩ }) ∧
  (∀ s : State, Ready s → s.status.toWord = 0x00000112 →
    ((hostExec 0x00000000 s).2).status.toWord = 0x00000002)

/-- 40_modular_reduction.md R420: MODRED's word, its error and its result: the one residue of ARG[0] in [0, ARG[1]),
written to RES[0] alone; every other register as before. -/
def Obligations.ModredReducesArgZeroModuloArgOne : Prop :=
  decode 0x00000001 = .command .modred ∧
  (∀ s : State, s.cur.toNat % 256 = 1 → s.cur ≠ 1 →
    completeCommand s = .next { s with status := ⟨false, true, .illegal, s.status.ovr⟩ }) ∧
  (∀ s : State, s32 s.arg[1] ≤ 0 →
    exec .modred s = .next { s with status := ⟨false, true, .param, s.status.ovr⟩ }) ∧
  (∀ s : State, (0 : Int) < s32 s.arg[1] →
    ∃ r : Word, 0 ≤ s32 r ∧ s32 r < s32 s.arg[1] ∧ s32 s.arg[1] ∣ s32 s.arg[0] - s32 r ∧
      exec .modred s =
        .next { s with res := s.res.set 0 r, status := ⟨false, true, .noError, s.status.ovr⟩ }) ∧
  (∀ s : State, s.arg[0] = -17 → s.arg[1] = 5 →
    ∃ t, exec .modred s = .next t ∧ t.res[0] = 3)

/-- 41_key_generation.md R451: after SKGEN, with whatever random source, the SK file has the shape R451 gives, `add` is in
[9, 99] and KEYOK holds; and SKGEN leaves every other register as it was (R450).  The command is that with the hardware's
source. -/
def Obligations.SkgenMakesAKeyOfTheStatedShape : Prop :=
  (∀ (src : Nat → Nat) (s : State), ∃ (k : SecretKey) (fresh : Nat),
    execSkgenFrom src s =
      .next { s with sk := k, status := ⟨false, true, .noError, s.status.ovr⟩, fresh := fresh } ∧
    SkShape k ∧ 9 ≤ s32 k.add ∧ s32 k.add ≤ 99 ∧ KeyOk k.modulo k.add k.dim) ∧
  ∀ s : State, exec .skgen s = execSkgenFrom Config.drawSource s

/-- 41_key_generation.md R450, 10_state.md R112: each draw may be any value of its range, so every key of R451's shape is
one that SKGEN makes, from some random source (the draws are numbered by the model, log entry 1). -/
def Obligations.EveryKeyOfTheShapeCanBeDrawn : Prop :=
  ∀ (k : SecretKey) (s : State), SkShape k →
    ∃ src : Nat → Nat,
      execSkgenFrom src s =
        .next { s with sk := k, status := ⟨false, true, .noError, s.status.ovr⟩, fresh := s.fresh + 17 }

/-- 41_key_generation.md R463: after PKGEN completes without error, with whatever random source, modulo, add and dim are
the SK file's, every coefficient is in [-4096, 4096) and every row satisfies R463's equation for a noise of R461; and
PKGEN leaves every other register as it was (R460).  The draws are free (10_state.md R112): every such public key, with
every such noise, is one that PKGEN makes, from some random source (the draws are numbered by the model, log entry 1). -/
def Obligations.PkgenDerivesEveryRow : Prop :=
  (∀ (src : Nat → Nat) (s : State), KeyOk s.sk.modulo s.sk.add s.sk.dim →
    ∃ (k : PublicKey) (e : Fin 170 → Int) (fresh : Nat),
      execPkgenFrom src s =
        .next { s with pk := k, status := ⟨false, true, .noError, s.status.ovr⟩, fresh := fresh } ∧
      DerivedWith s.sk k e) ∧
  (∀ (s : State) (k : PublicKey) (e : Fin 170 → Int), KeyOk s.sk.modulo s.sk.add s.sk.dim → DerivedWith s.sk k e →
    ∃ (src : Nat → Nat) (fresh : Nat),
      execPkgenFrom src s =
        .next { s with pk := k, status := ⟨false, true, .noError, s.status.ovr⟩, fresh := fresh }) ∧
  ∀ s : State, exec .pkgen s = execPkgenFrom Config.drawSource s

/-- 40_modular_reduction.md R407: KEYOK said on the words; PKGEN, ENCCHAR and DECCHUNK raise ERR_PARAM, before anything
else and with no other effect, when the key they read fails it; SKGEN's key has it. -/
def Obligations.KeyCheckFailureRaisesErrParam : Prop :=
  (∀ modulo add dim : Word, KeyOk modulo add dim ↔ (0 < s32 modulo ∧ 0 < s32 add ∧ s32 dim = 16)) ∧
  (∀ s t : State, exec .skgen s = .next t → KeyOk t.sk.modulo t.sk.add t.sk.dim) ∧
  (∀ s : State, ¬ KeyOk s.sk.modulo s.sk.add s.sk.dim →
    exec .pkgen s = .next { s with status := ⟨false, true, .param, s.status.ovr⟩ } ∧
    exec .decchunk s = .next { s with status := ⟨false, true, .param, s.status.ovr⟩ }) ∧
  (∀ s : State, ¬ KeyOk s.pk.modulo s.pk.add s.pk.dim →
    exec .encchar s = .next { s with status := ⟨false, true, .param, s.status.ovr⟩ })

/-- 41_key_generation.md R462: for a key of SKGEN's shape and coefficients in range each product is at most 2^24 and the dot
product at most 2^28 in magnitude, no sum of PKGEN wraps, and every `b` is in [0, q). -/
def Obligations.GeneratedKeyNeverWrapsInPkgen : Prop :=
  ∀ (sk : SecretKey) (a : Row) (e : Int), SkShape sk →
    (∀ c : Fin 16, -4096 ≤ s32 a[c.castSucc] ∧ s32 a[c.castSucc] < 4096) → NoiseIn (Int.tdiv (s32 sk.add) 10) e →
    (∀ i : Fin 16, |s32 sk.key[i] * s32 a[i.castSucc]| ≤ 2 ^ 24) ∧
    s32 (dot16 sk.key a) = ∑ i : Fin 16, s32 sk.key[i] * s32 a[i.castSucc] ∧
    |s32 (dot16 sk.key a)| ≤ 2 ^ 28 ∧ |e| ≤ 9 ∧
    s32 (wrap32 (s32 (dot16 sk.key a) + e)) = s32 (dot16 sk.key a) + e ∧
    0 ≤ modulus (s32 (wrap32 (s32 (dot16 sk.key a) + e))) (s32 sk.modulo) ∧
    modulus (s32 (wrap32 (s32 (dot16 sk.key a) + e))) (s32 sk.modulo) < s32 sk.modulo

/-- 42_encryption.md R500, R501, R502: with a public key that passes KEYOK and a scalar value in ARG[0], ENCCHAR completes
with whatever random source: it samples two to four rows below 160, RES[0..15] are the wrapped sums of their coefficients,
RES[16] is the residue modulo q of the wrapped sum of their `b` terms and `char_num`; nothing else changes but the index of
free values (log entry 1). -/
def Obligations.EnccharSumsSampledRowsAndFoldsTheCharacter : Prop :=
  (∀ (src : Nat → Nat) (s : State), KeyOk s.pk.modulo s.pk.add s.pk.dim → IsScalar (u32 s.arg[0]) →
    ∃ (js : List Nat) (out : Row), Sampled js ∧
      execEnccharFrom src s =
        .next { s with res := out, status := ⟨false, true, .noError, s.status.ovr⟩,
                       fresh := s.fresh + 1 + js.length } ∧
      (∀ c : Fin 16, out[c.castSucc] = (js.map fun j => (s.pk.row j)[c.castSucc]).sum) ∧
      s32 out[16] =
        modulus (s32 ((js.map fun j => (s.pk.row j)[16]).sum + s.arg[0] * s.pk.add)) (s32 s.pk.modulo)) ∧
  ∀ s : State, exec .encchar s = execEnccharFrom Config.drawSource s

/-- 42_encryption.md R500, R502, 10_state.md R112: the sampled rows are free: any two to four rows below 160, repeats
included, are those some random source gives (the draws are numbered by the model, log entry 1). -/
def Obligations.AnySampledRowsCanBeDrawn : Prop :=
  ∀ (js : List Nat) (s : State), Sampled js → KeyOk s.pk.modulo s.pk.add s.pk.dim → IsScalar (u32 s.arg[0]) →
    ∃ src : Nat → Nat,
      execEnccharFrom src s =
        .next { s with res := encChunk s.pk (u32 s.arg[0]) js, status := ⟨false, true, .noError, s.status.ovr⟩,
                       fresh := s.fresh + 1 + js.length }

/-- 42_encryption.md R503: for a public key PKGEN derived from a key SKGEN made, nothing wraps in ENCCHAR: the coefficients
of the chunk are the exact sums, in [-16384, 16380]; the `b` terms sum to [0, 4·(q - 1)]; with `char_num` the sum stays
below 2^31; and the last word is in [0, q). -/
def Obligations.GeneratedKeysNeverWrapInEncchar : Prop :=
  ∀ (sk : SecretKey) (pk : PublicKey) (js : List Nat) (v : Int),
    KeyPair sk pk → Sampled js → IsScalar v →
    (∀ c : Fin 16,
      s32 (encChunk pk v js)[c.castSucc] = (js.map fun j => s32 (pk.row j)[c.castSucc]).sum ∧
      -16384 ≤ s32 (encChunk pk v js)[c.castSucc] ∧ s32 (encChunk pk v js)[c.castSucc] ≤ 16380) ∧
    s32 (rowSum pk js)[16] = (js.map fun j => s32 (pk.row j)[16]).sum ∧
    (0 : Int) ≤ s32 (rowSum pk js)[16] ∧ s32 (rowSum pk js)[16] ≤ 4 * (s32 pk.modulo - 1) ∧ 4 * s32 pk.modulo < 444825600 ∧
    v * s32 pk.add ≤ s32 pk.modulo ∧ s32 (encodeScale v (s32 pk.add)) = v * s32 pk.add ∧
    s32 (wrap32 (s32 (rowSum pk js)[16] + v * s32 pk.add)) = s32 (rowSum pk js)[16] + v * s32 pk.add ∧
    (0 : Int) ≤ s32 (encChunk pk v js)[16] ∧ s32 (encChunk pk v js)[16] < s32 pk.modulo

/-- 43_decryption.md R550: with a secret key that passes KEYOK, DECCHUNK computes the wrapped difference of ARG[16] and the
sixteen products, its residue modulo q and the rounded quotient by `add`, and writes it to RES[0] when it is a scalar
value; otherwise it raises ERR_SCALAR.  Nothing else changes. -/
def Obligations.DecchunkRoundsTheResidue : Prop :=
  ∀ s : State, KeyOk s.sk.modulo s.sk.add s.sk.dim →
    ∃ value scalar : Int,
      value = (s32 (s.arg[16] - ∑ i : Fin 16, s.sk.key[i] * s.arg[i.castSucc])) % s32 s.sk.modulo ∧
      scalar = (2 * value + s32 s.sk.add) / (2 * s32 s.sk.add) ∧
      (IsScalar scalar →
        ∃ w : Word, s32 w = scalar ∧
          exec .decchunk s =
            .next { s with res := s.res.set 0 w, status := ⟨false, true, .noError, s.status.ovr⟩ }) ∧
      (¬ IsScalar scalar →
        exec .decchunk s = .next { s with status := ⟨false, true, .scalar, s.status.ovr⟩ })

/-- 44_key_access_and_control.md R610: RDSK copies word `idx` of the SK file to RES[0] and changes nothing else; beyond word
18 it raises ERR_INDEX. -/
def Obligations.RdskReadsOneSecretWord : Prop :=
  (∀ (s : State) (idx : Nat) (h : idx < 16),
    exec (.rdsk idx) s =
      .next { s with res := s.res.set 0 s.sk.key[idx], status := ⟨false, true, .noError, s.status.ovr⟩ }) ∧
  (∀ s : State,
    exec (.rdsk 16) s =
      .next { s with res := s.res.set 0 s.sk.modulo, status := ⟨false, true, .noError, s.status.ovr⟩ } ∧
    exec (.rdsk 17) s =
      .next { s with res := s.res.set 0 s.sk.add, status := ⟨false, true, .noError, s.status.ovr⟩ } ∧
    exec (.rdsk 18) s =
      .next { s with res := s.res.set 0 s.sk.dim, status := ⟨false, true, .noError, s.status.ovr⟩ }) ∧
  (∀ (s : State) (idx : Nat), 18 < idx →
    exec (.rdsk idx) s = .next { s with status := ⟨false, true, .index, s.status.ovr⟩ })

/-- 44_key_access_and_control.md R611: WRSK stores ARG[0] unchanged as word `idx` of the SK file, every other word of it and
every other register staying; beyond word 18 it raises ERR_INDEX. -/
def Obligations.WrskWritesOneSecretWord : Prop :=
  (∀ (s : State) (idx : Nat), idx ≤ 18 →
    ∃ k : SecretKey, k.word? idx = some s.arg[0] ∧ (∀ j, j ≠ idx → k.word? j = s.sk.word? j) ∧
      exec (.wrsk idx) s = .next { s with sk := k, status := ⟨false, true, .noError, s.status.ovr⟩ }) ∧
  (∀ (s : State) (idx : Nat), 18 < idx →
    exec (.wrsk idx) s = .next { s with status := ⟨false, true, .index, s.status.ovr⟩ })

/-- 44_key_access_and_control.md R620, 10_state.md R105: RDPK copies word `idx` of the PK store to RES[0], word `17·r + c`
being word `c` of row `r`; beyond word 2892 it raises ERR_INDEX. -/
def Obligations.RdpkReadsOnePublicWord : Prop :=
  (∀ (s : State) (r : Fin 170) (c : Fin 17),
    exec (.rdpk (17 * r + c)) s =
      .next { s with res := s.res.set 0 (s.pk.row r)[c], status := ⟨false, true, .noError, s.status.ovr⟩ }) ∧
  (∀ s : State,
    exec (.rdpk 2890) s =
      .next { s with res := s.res.set 0 s.pk.modulo, status := ⟨false, true, .noError, s.status.ovr⟩ } ∧
    exec (.rdpk 2891) s =
      .next { s with res := s.res.set 0 s.pk.add, status := ⟨false, true, .noError, s.status.ovr⟩ } ∧
    exec (.rdpk 2892) s =
      .next { s with res := s.res.set 0 s.pk.dim, status := ⟨false, true, .noError, s.status.ovr⟩ }) ∧
  (∀ (s : State) (idx : Nat), 2892 < idx →
    exec (.rdpk idx) s = .next { s with status := ⟨false, true, .index, s.status.ovr⟩ })

/-- 44_key_access_and_control.md R621: WRPK stores ARG[0] unchanged as word `idx` of the PK store, every other word of it and
every other register staying; beyond word 2892 it raises ERR_INDEX. -/
def Obligations.WrpkWritesOnePublicWord : Prop :=
  (∀ (s : State) (idx : Nat), idx ≤ 2892 →
    ∃ k : PublicKey, k.word? idx = some s.arg[0] ∧ (∀ j, j ≠ idx → k.word? j = s.pk.word? j) ∧
      exec (.wrpk idx) s = .next { s with pk := k, status := ⟨false, true, .noError, s.status.ovr⟩ }) ∧
  (∀ (s : State) (idx : Nat), 2892 < idx →
    exec (.wrpk idx) s = .next { s with status := ⟨false, true, .index, s.status.ovr⟩ })

/-! ## Errors -/

/-- 60_exceptions.md R710: an error completion writes STATUS ← BUSY = 0, DONE = 1, ERR = k, OVR unchanged, and nothing else,
whatever command raised it. -/
def Obligations.ErrorCompletionWritesOnlyStatus : Prop :=
  ∀ s t : State, completeCommand s = .next t → t.status.err ≠ .noError →
    t = { s with status := ⟨false, true, t.status.err, s.status.ovr⟩ }

/-- 60_exceptions.md R703: the order of the checks, for a latched word and the state it meets. -/
def Obligations.ErrorsAreReportedInPriorityOrder : Prop :=
  ∀ s : State,
    (∀ why, decode s.cur = .illegal why →
      completeCommand s = .next { s with status := ⟨false, true, .illegal, s.status.ovr⟩ }) ∧
    (∀ idx, 18 < idx → decode s.cur = .command (.rdsk idx) ∨ decode s.cur = .command (.wrsk idx) →
      completeCommand s = .next { s with status := ⟨false, true, .index, s.status.ovr⟩ }) ∧
    (∀ idx, 2892 < idx → decode s.cur = .command (.rdpk idx) ∨ decode s.cur = .command (.wrpk idx) →
      completeCommand s = .next { s with status := ⟨false, true, .index, s.status.ovr⟩ }) ∧
    (decode s.cur = .command .modred → s32 s.arg[1] ≤ 0 →
      completeCommand s = .next { s with status := ⟨false, true, .param, s.status.ovr⟩ }) ∧
    (decode s.cur = .command .pkgen → ¬ KeyOk s.sk.modulo s.sk.add s.sk.dim →
      completeCommand s = .next { s with status := ⟨false, true, .param, s.status.ovr⟩ }) ∧
    (decode s.cur = .command .encchar → ¬ KeyOk s.pk.modulo s.pk.add s.pk.dim →
      completeCommand s = .next { s with status := ⟨false, true, .param, s.status.ovr⟩ }) ∧
    (decode s.cur = .command .encchar → KeyOk s.pk.modulo s.pk.add s.pk.dim → ¬ IsScalar (u32 s.arg[0]) →
      completeCommand s = .next { s with status := ⟨false, true, .badChar, s.status.ovr⟩ }) ∧
    (decode s.cur = .command .decchunk → ¬ KeyOk s.sk.modulo s.sk.add s.sk.dim →
      completeCommand s = .next { s with status := ⟨false, true, .param, s.status.ovr⟩ }) ∧
    (decode s.cur = .command .decchunk → KeyOk s.sk.modulo s.sk.add s.sk.dim → ¬ IsScalar (decScalar s.sk s.arg) →
      completeCommand s = .next { s with status := ⟨false, true, .scalar, s.status.ovr⟩ })

/-- 60_exceptions.md R711: with no command in progress, a step leaves ERR and DONE as they are, or is the issue of a command,
which leaves ERR = 0, or RST is asserted or released. -/
def Obligations.ErrorCodeStaysUntilTheNextIssue : Prop :=
  ∀ s t : State, ¬ Running s → step s = .next t →
    (t.status.err = s.status.err ∧ t.status.done = s.status.done) ∨
    (Ready s ∧ Running t ∧ t.status.err = .noError ∧ t.status.done = false) ∨
    (∃ e rest, s.pending = e :: rest ∧ (e = .assertReset ∨ (e = .deassertReset ∧ s.rst = true)) ∧
      t = hostMove e rest s)

/-! ## Rules about the whole machine -/

/-- 10_state.md R101, R102, R106, R114: what each command's completion may write.  ARG, CUR and RST are written by none; SK
only by SKGEN and WRSK; PK only by PKGEN and WRPK; RES[0] alone by MODRED, DECCHUNK, RDSK and RDPK, all of RES by ENCCHAR,
none of it by the others; and every completion leaves BUSY = 0 and DONE = 1.  The model's own fields but the index of
free values stay. -/
def Obligations.CompletionWritesOnlyWhatItsRuleNames : Prop :=
  ∀ (i : Instr) (s : State), ∃ t : State, exec i s = .next t ∧
    t.arg = s.arg ∧ t.cur = s.cur ∧ t.rst = s.rst ∧ t.latency = s.latency ∧ t.pending = s.pending ∧
    t.responses = s.responses ∧ t.status.busy = false ∧ t.status.done = true ∧
    (i ≠ .skgen → (∀ idx, i ≠ .wrsk idx) → t.sk = s.sk) ∧
    (i ≠ .pkgen → (∀ idx, i ≠ .wrpk idx) → t.pk = s.pk) ∧
    (i ≠ .encchar → ∀ c : Fin 17, c ≠ 0 → t.res[c] = s.res[c]) ∧
    (i ≠ .encchar → i ≠ .modred → i ≠ .decchunk → (∀ idx, i ≠ .rdsk idx) → (∀ idx, i ≠ .rdpk idx) → t.res = s.res)

/-- 10_state.md R102, R106, 70_reset_and_hazards.md R801: in a step of the whole machine the SK file changes only when SKGEN
or WRSK completes, the PK store only when PKGEN or WRPK completes, and RES only when a command completes, or when the host
asserts or releases RST. -/
def Obligations.KeysAndResultsChangeOnlyByTheirCommands : Prop :=
  ∀ s t : State, step s = .next t →
    (∃ e rest, s.pending = e :: rest ∧ (e = .assertReset ∨ (e = .deassertReset ∧ s.rst = true)) ∧
      t = hostMove e rest s) ∨
    ((t.sk ≠ s.sk → Running s ∧ (decode s.cur = .command .skgen ∨ ∃ idx, decode s.cur = .command (.wrsk idx))) ∧
      (t.pk ≠ s.pk → Running s ∧ (decode s.cur = .command .pkgen ∨ ∃ idx, decode s.cur = .command (.wrpk idx))) ∧
      (t.res ≠ s.res → Running s ∧ ∃ i, decode s.cur = .command i ∧ exec i s = .next t))

/-- 70_reset_and_hazards.md R811, 44_key_access_and_control.md R600: OVR, once 1, stays 1 in every step but the completion of
a NOP and a reset. -/
def Obligations.OverrunStaysUntilNopOrReset : Prop :=
  ∀ s t : State, step s = .next t → s.status.ovr = true → t.status.ovr = false →
    (Running s ∧ decode s.cur = .command .nop ∧ exec .nop s = .next t) ∨
    (∃ e rest, s.pending = e :: rest ∧ (e = .assertReset ∨ (e = .deassertReset ∧ s.rst = true)) ∧
      t = hostMove e rest s)

/-- 30_encoding.md R305, 10_state.md R110: with a command in progress and nothing of the host's to come first, the step is
the meaning of the decoded command; and a placed command word is what the very next step runs.  The latency and the placing
are the model's own (log entries 2 and 9). -/
def Obligations.StepRunsTheDecodedCommand : Prop :=
  (∀ (s : State) (i : Instr), Running s → (s.latency = 0 ∨ s.pending = []) → decode s.cur = .command i →
    step s = exec i s) ∧
  (∀ (s : State) (i : Instr), i.wellFormed = true →
    step (s.withFetchWord 32 (encode i).toNat) =
      exec i { s with cur := encode i, status := ⟨true, false, .noError, s.status.ovr⟩, latency := 0, rst := false })

/-- 60_exceptions.md R710, R712, R721: every state of the machine has a next state; a bus error is an answer and no stop (log
entry 6). -/
def Obligations.EveryStateHasANextState : Prop :=
  ∀ s : State, ∃ t : State, step s = .next t

/-- 70_reset_and_hazards.md R820 (weak fairness), decision D15: whatever the host does meanwhile, a command in progress has
ended after at most as many steps as its latency says, and one more (what the latency counts is the model's, log entry 2). -/
def Obligations.EveryIssuedCommandEnds : Prop :=
  ∀ s : State, Running s →
    ∃ (k : Nat) (t : State), k ≤ s.latency + 1 ∧ Host.Core.run Sys2Proof.core k s = .next t ∧ t.status.busy = false

/-- 10_state.md R109, 70_reset_and_hazards.md R801: from every state that meets it, every step keeps the invariant: STATUS is
legal (BUSY = 1 implies DONE = 0 and ERR = 0), and while RST is asserted every register holds its reset value (already then:
log entry 7). -/
def Obligations.EveryStepKeepsTheInvariant : Prop :=
  ∀ s t : State, StateInv s → step s = .next t → StateInv t

/-- The invariant holds at reset: STATUS is legal, and every register holds its reset value if RST is asserted (log entry 7). -/
def Obligations.ResetMeetsTheInvariant : Prop := StateInv State.reset

/-! ## Independence -/

/-- 20_memory.md R217, 43_decryption.md R554: ENCCHAR's result depends only on ARG[0], the PK store and its own draws,
DECCHUNK's only on ARG and the SK file, and neither writes a key: whatever else differs, RES included, the error code is
the same, and so are the words a success writes; an error leaves RES as it was, and DECCHUNK always leaves RES[1..16].  (The draws are those of the source `src` from the index `fresh` on: log entry 1.) -/
def Obligations.ItemResultsDependOnlyOnTheirItem : Prop :=
  (∀ (src : Nat → Nat) (s t s' t' : State), s.arg[0] = t.arg[0] → s.pk = t.pk → s.fresh = t.fresh →
    execEnccharFrom src s = .next s' → execEnccharFrom src t = .next t' →
    s'.status.err = t'.status.err ∧ (s'.status.err = .noError → s'.res = t'.res) ∧
    (s'.status.err ≠ .noError → s'.res = s.res) ∧ s'.sk = s.sk ∧ s'.pk = s.pk) ∧
  (∀ s t s' t' : State, s.arg = t.arg → s.sk = t.sk →
    exec .decchunk s = .next s' → exec .decchunk t = .next t' →
    s'.status.err = t'.status.err ∧ (s'.status.err = .noError → s'.res[0] = t'.res[0]) ∧
    (s'.status.err ≠ .noError → s'.res = s.res) ∧ (∀ c : Fin 17, c ≠ 0 → s'.res[c] = s.res[c]) ∧
    s'.sk = s.sk ∧ s'.pk = s.pk)

/-! ## The round trip -/

/-- 41_key_generation.md R451, R463: SKGEN followed by PKGEN leaves a pair of keys the round trip holds for. -/
def Obligations.KeyGenerationMakesAKeyPair : Prop :=
  ∀ s : State, ∃ t u : State, exec .skgen s = .next t ∧ exec .pkgen t = .next u ∧ KeyPair u.sk u.pk

/-- 42_encryption.md R504: the congruence a chunk carries. -/
def Obligations.ChunkCarriesTheCharacterUnderTheNoise : Prop :=
  ∀ (sk : SecretKey) (pk : PublicKey) (e : Fin 170 → Int) (js : List Nat) (v : Int),
    SkShape sk → DerivedWith sk pk e → Sampled js → IsScalar v →
    (∀ c : Fin 16, s32 (encChunk pk v js)[c.castSucc] = (js.map fun j => s32 (pk.row j)[c.castSucc]).sum) ∧
    s32 sk.modulo ∣
      s32 (encChunk pk v js)[16] -
        ((js.map fun j => s32 (dot16 sk.key (pk.row j))).sum + noiseSum e js + v * s32 sk.add)

/-- 43_decryption.md R553: nothing wraps when a chunk of ENCCHAR is decrypted under the pair it was made with: the dot
product is exact and at most 2^30 in magnitude, the last word is in [0, q), their difference is exact, and the value is in
[0, q). -/
def Obligations.GeneratedChunksNeverWrapInDecchunk : Prop :=
  ∀ (sk : SecretKey) (pk : PublicKey) (js : List Nat) (v : Int),
    KeyPair sk pk → Sampled js → IsScalar v →
    s32 (dot16 sk.key (encChunk pk v js)) = ∑ i : Fin 16, s32 sk.key[i] * s32 (encChunk pk v js)[i.castSucc] ∧
    |s32 (dot16 sk.key (encChunk pk v js))| ≤ 2 ^ 30 ∧
    (0 : Int) ≤ s32 (encChunk pk v js)[16] ∧ s32 (encChunk pk v js)[16] < s32 sk.modulo ∧
    s32 (wrap32 (s32 (encChunk pk v js)[16] - s32 (dot16 sk.key (encChunk pk v js)))) =
      s32 (encChunk pk v js)[16] - s32 (dot16 sk.key (encChunk pk v js)) ∧
    0 ≤ decValue sk (encChunk pk v js) ∧ decValue sk (encChunk pk v js) < s32 sk.modulo

/-- 43_decryption.md R551: the summed noise is below half of `add`, the decrypted value is `modulus(v·add + E, q)`, and when
`0 <= v·add + E < q` the chunk decrypts to exactly `v`, under every draw. -/
def Obligations.ChunkDecryptsToItsCharacter : Prop :=
  ∀ (sk : SecretKey) (pk : PublicKey) (e : Fin 170 → Int) (js : List Nat) (v : Int),
    SkShape sk → DerivedWith sk pk e → Sampled js → IsScalar v →
    (Int.tdiv (s32 sk.add) 10 = 0 → noiseSum e js = 0) ∧
    (1 ≤ Int.tdiv (s32 sk.add) 10 →
      -(js.length * Int.tdiv (s32 sk.add) 10) ≤ noiseSum e js ∧
      noiseSum e js ≤ js.length * (Int.tdiv (s32 sk.add) 10 - 1)) ∧
    |noiseSum e js| ≤ 4 * Int.tdiv (s32 sk.add) 10 ∧ 2 * (4 * Int.tdiv (s32 sk.add) 10) < s32 sk.add ∧
    decValue sk (encChunk pk v js) = modulus (v * s32 sk.add + noiseSum e js) (s32 sk.modulo) ∧
    (0 ≤ v * s32 sk.add + noiseSum e js → v * s32 sk.add + noiseSum e js < s32 sk.modulo →
      decScalar sk (encChunk pk v js) = v)

/-- 43_decryption.md R552: where the round trip fails: U+0000 under a negative noise sum, and U+10FFFF under a noise sum of at
least `q - 1114111·add`, which decrypts to 0; every other scalar value meets the condition of R551, and so does every
scalar value when fuzz = 0. -/
def Obligations.RoundTripFailsOnlyAtTheTwoEnds : Prop :=
  ∀ (sk : SecretKey) (pk : PublicKey) (e : Fin 170 → Int) (js : List Nat) (v : Int),
    SkShape sk → DerivedWith sk pk e → Sampled js → IsScalar v →
    (v = 0 → noiseSum e js < 0 →
      decScalar sk (encChunk pk v js) = 0x10FFFF ∨ ¬ IsScalar (decScalar sk (encChunk pk v js))) ∧
    (v = 0x10FFFF → s32 sk.modulo - 1114111 * s32 sk.add ≤ noiseSum e js → decScalar sk (encChunk pk v js) = 0) ∧
    (¬ (v = 0 ∧ noiseSum e js < 0) → ¬ (v = 0x10FFFF ∧ s32 sk.modulo - 1114111 * s32 sk.add ≤ noiseSum e js) →
      decScalar sk (encChunk pk v js) = v) ∧
    (Int.tdiv (s32 sk.add) 10 = 0 → decScalar sk (encChunk pk v js) = v)

/-- 43_decryption.md R551, R552, 90_conflicts.md C5: the round trip on the machine.  With a key pair in the block and, in
ARG[0], any scalar value but U+0000 and U+10FFFF, ENCCHAR completes, and DECCHUNK of the chunk it left, copied to ARG,
completes with that value in RES[0], under every draw. -/
def Obligations.EncryptedCharacterDecryptsToItself : Prop :=
  ∀ s : State, KeyPair s.sk s.pk → IsScalar (u32 s.arg[0]) → s.arg[0] ≠ 0 → s.arg[0] ≠ 0x10FFFF →
    ∃ t u : State, exec .encchar s = .next t ∧ t.status.err = .noError ∧
      exec .decchunk { t with arg := t.res } = .next u ∧ u.status.err = .noError ∧ u.res[0] = s.arg[0]

/-! ## Host pseudo-operations -/

/-- 30_encoding.md R321, R322, 43_decryption.md R552: the round trip of a whole string: for a block that is ready and holds a
key pair, ENCSTR of a string without U+0000 and U+10FFFF succeeds with 17 words a character, and DECBUF of its bytes gives
the string back, under every draw.  WAIT is taken as a whole (log entry 8). -/
def Obligations.EncryptedStringDecryptsToItself : Prop :=
  ∀ (m : List Int) (s : State), Ready s → KeyPair s.sk s.pk → (∀ v ∈ m, IsScalar v ∧ v ≠ 0 ∧ v ≠ 0x10FFFF) →
    ∃ (ct : List Word) (t u : State), encStr m s = (.ok ct, t) ∧ ct.length = 17 * m.length ∧
      decBuf (bytesOfWords ct) t = (.ok m, u)

/-- 30_encoding.md R321, R322, R323: a buffer of the wrong length fails with LENGTH and issues nothing, and an empty string or
buffer issues nothing; and after chunks that decrypt (none, or any number) a chunk whose `EXEC DECCHUNK` fails ends DECBUF
with that error, the chunks after it not issued (WAIT is taken as a whole: log entry 8). -/
def Obligations.WrongLengthBuffersIssueNothing : Prop :=
  (∀ (s : State) (bytes : List Byte),
    (bytes.length % 68 ≠ 0 → decBuf bytes s = (.error .length, s)) ∧
    (bytes.length ≠ 76 → loadSk bytes s = (.error .length, s)) ∧
    (bytes.length ≠ 11572 → loadPk bytes s = (.error .length, s)) ∧
    decBuf [] s = (.ok [], s) ∧ encStr [] s = (.ok [], s)) ∧
  ∀ (s t u : State) (ahead rest : List Word) (m : List Int) (chunk : Row) (err : HostError), Ready s →
    decBuf (bytesOfWords ahead) s = (.ok m, t) → rest.length % 17 = 0 →
    hostExec (encode .decchunk) { t with arg := chunk } = (.error err, u) →
    decBuf (bytesOfWords (ahead ++ chunk.toList ++ rest)) s = (.error err, u)

/-- 44_key_access_and_control.md R612, 30_encoding.md R324, 70_reset_and_hazards.md R802: STORESK gives 76 bytes and leaves the
block ready with both keys as they were, and LOADSK of them into any ready block, that one or another, makes SK[0..18] the
stored words and leaves PK; STOREPK gives 11572 bytes, and the same of LOADPK and PK[0..2892]. -/
def Obligations.StoredKeysLoadBackUnchanged : Prop :=
  ∀ s : State, Ready s →
    (∃ (bytes : List Byte) (t : State), storeSk s = (.ok bytes, t) ∧ bytes.length = 76 ∧
      Ready t ∧ t.sk = s.sk ∧ t.pk = s.pk ∧
      ∀ r : State, Ready r → ∃ u : State, loadSk bytes r = (.ok (), u) ∧ u.sk = s.sk ∧ u.pk = r.pk) ∧
    (∃ (bytes : List Byte) (t : State), storePk s = (.ok bytes, t) ∧ bytes.length = 11572 ∧
      Ready t ∧ t.sk = s.sk ∧ t.pk = s.pk ∧
      ∀ r : State, Ready r → ∃ u : State, loadPk bytes r = (.ok (), u) ∧ u.pk = s.pk ∧ u.sk = r.sk)

/-- 20_memory.md R210, R211: byte `4·i + k` of a list of words is bits 8k+7 to 8k of word `i`, four bytes a word and no more;
and the words are read back from those bytes. -/
def Obligations.LittleEndianBytesReadBackAsWords : Prop :=
  ∀ ws : List Word,
    (bytesOfWords ws).length = 4 * ws.length ∧
    (∀ (i k : Nat) (h : i < ws.length), k < 4 →
      ∃ b : Byte, (bytesOfWords ws)[4 * i + k]? = some b ∧ b.toNat = ws[i].toNat / 2 ^ (8 * k) % 256) ∧
    wordsOfBytes (bytesOfWords ws) = ws

/-- 30_encoding.md R311, R320, 20_memory.md R214: the accesses of EXEC, performed one by one against the engine whatever the
latency, leave every register as `hostExec` does (log entries 2 and 8), and the last answer is the STATUS word; and
`hostExec` succeeds exactly when ERR is 0, and otherwise fails with the error `st[7:4]`. -/
def Obligations.QueuedExecReachesTheDriversState : Prop :=
  ∀ (s : State) (w : Word), Ready s →
    ∃ (k : Nat) (t : State),
      Host.Core.run Sys2Proof.core k
        { s with pending := [HostStmt.event (.cmd w), HostStmt.event .wait, HostStmt.event .readStatus] } = .next t ∧
      t.pending = [] ∧ Ready t ∧ t.arg = (hostExec w s).2.arg ∧ t.res = (hostExec w s).2.res ∧
      t.sk = (hostExec w s).2.sk ∧ t.pk = (hostExec w s).2.pk ∧ t.cur = (hostExec w s).2.cur ∧
      t.status = (hostExec w s).2.status ∧ t.responses.head? = some (.data t.status.toWord) ∧
      (t.status.err = .noError → (hostExec w s).1 = .ok ()) ∧
      (t.status.err ≠ .noError → (hostExec w s).1 = .error (.command (t.status.toWord.toNat / 16 % 16)))
end

