-- ==== Sys2Proof/Laws/State.lean ====
section
/-! SUPPORT. One lemma for each field under each named update of State and Status, so that no proof unfolds one. -/

namespace Sys2Proof.Machine

variable (s : State) (t : Status) (c : ErrCode) (r : HostResponse) (w : Word) (b : Bool)

/-! ## Status -/

@[simp] theorem Status.issued_busy : t.issued.busy = true := rfl
@[simp] theorem Status.issued_done : t.issued.done = false := rfl
@[simp] theorem Status.issued_err : t.issued.err = .noError := rfl
@[simp] theorem Status.issued_ovr : t.issued.ovr = t.ovr := rfl
@[simp] theorem Status.completed_busy : (t.completed c).busy = false := rfl
@[simp] theorem Status.completed_done : (t.completed c).done = true := rfl
@[simp] theorem Status.completed_err : (t.completed c).err = c := rfl
@[simp] theorem Status.completed_ovr : (t.completed c).ovr = t.ovr := rfl
@[simp] theorem Status.overrun_busy : t.overrun.busy = t.busy := rfl
@[simp] theorem Status.overrun_done : t.overrun.done = t.done := rfl
@[simp] theorem Status.overrun_err : t.overrun.err = t.err := rfl
@[simp] theorem Status.overrun_ovr : t.overrun.ovr = true := rfl
@[simp] theorem Status.clearOverrun_busy : t.clearOverrun.busy = t.busy := rfl
@[simp] theorem Status.clearOverrun_done : t.clearOverrun.done = t.done := rfl
@[simp] theorem Status.clearOverrun_err : t.clearOverrun.err = t.err := rfl
@[simp] theorem Status.clearOverrun_ovr : t.clearOverrun.ovr = false := rfl

/-! ## Answers to the host -/

@[simp] theorem State.respond_arg : (s.respond r).arg = s.arg := rfl
@[simp] theorem State.respond_res : (s.respond r).res = s.res := rfl
@[simp] theorem State.respond_sk : (s.respond r).sk = s.sk := rfl
@[simp] theorem State.respond_pk : (s.respond r).pk = s.pk := rfl
@[simp] theorem State.respond_cur : (s.respond r).cur = s.cur := rfl
@[simp] theorem State.respond_status : (s.respond r).status = s.status := rfl
@[simp] theorem State.respond_rst : (s.respond r).rst = s.rst := rfl
@[simp] theorem State.respond_latency : (s.respond r).latency = s.latency := rfl
@[simp] theorem State.respond_fresh : (s.respond r).fresh = s.fresh := rfl
@[simp] theorem State.respond_pending : (s.respond r).pending = s.pending := rfl
@[simp] theorem State.respond_responses : (s.respond r).responses = r :: s.responses := rfl

/-! ## Issue -/

@[simp] theorem issue_arg : (issue w s).arg = s.arg := rfl
@[simp] theorem issue_res : (issue w s).res = s.res := rfl
@[simp] theorem issue_sk : (issue w s).sk = s.sk := rfl
@[simp] theorem issue_pk : (issue w s).pk = s.pk := rfl
@[simp] theorem issue_cur : (issue w s).cur = w := rfl
@[simp] theorem issue_status : (issue w s).status = s.status.issued := rfl
@[simp] theorem issue_rst : (issue w s).rst = s.rst := rfl
@[simp] theorem issue_latency : (issue w s).latency = Config.latency s.fresh := rfl
@[simp] theorem issue_fresh : (issue w s).fresh = s.fresh + 1 := rfl
@[simp] theorem issue_pending : (issue w s).pending = s.pending := rfl
@[simp] theorem issue_responses : (issue w s).responses = s.responses := rfl

/-! ## Reset -/

@[simp] theorem resetRegisters_arg : (resetRegisters b s).arg = zeroRow := rfl
@[simp] theorem resetRegisters_res : (resetRegisters b s).res = zeroRow := rfl
@[simp] theorem resetRegisters_sk : (resetRegisters b s).sk = SecretKey.reset := rfl
@[simp] theorem resetRegisters_pk : (resetRegisters b s).pk = PublicKey.reset := rfl
@[simp] theorem resetRegisters_cur : (resetRegisters b s).cur = 0 := rfl
@[simp] theorem resetRegisters_status : (resetRegisters b s).status = Status.reset := rfl
@[simp] theorem resetRegisters_rst : (resetRegisters b s).rst = b := rfl
@[simp] theorem resetRegisters_latency : (resetRegisters b s).latency = 0 := rfl
@[simp] theorem resetRegisters_fresh : (resetRegisters b s).fresh = s.fresh := rfl
@[simp] theorem resetRegisters_pending : (resetRegisters b s).pending = s.pending := rfl
@[simp] theorem resetRegisters_responses : (resetRegisters b s).responses = s.responses := rfl

end Sys2Proof.Machine
end

