-- ==== Sys2Proof/Laws/Arith.lean ====
section
/-! SUPPORT. What the arithmetic of Machine/Arith.lean gives, one lemma for each fact a proof needs. -/

namespace Sys2Proof

/-! ## Words -/

/-- 00_scope.md R9: the signed reading of `wrap32 x` is `((x + 2^31) mod 2^32) - 2^31`. -/
theorem s32_wrap32 (x : Int) : s32 (wrap32 x) = (x + 2147483648) % 4294967296 - 2147483648 := by
  rw [s32, wrap32, BitVec.toInt_ofInt, Int.bmod_def]
  norm_num
  split <;> omega

/-- A value in the signed range is stored unchanged. -/
theorem s32_wrap32_of_range {x : Int} (h₁ : -2147483648 ≤ x) (h₂ : x < 2147483648) : s32 (wrap32 x) = x := by
  rw [s32_wrap32]; omega

theorem s32_range (w : Word) : -2147483648 ≤ s32 w ∧ s32 w < 2147483648 := by
  have h₁ := BitVec.le_toInt w
  have h₂ := BitVec.toInt_lt (x := w)
  norm_num at h₁ h₂
  exact ⟨h₁, h₂⟩

@[simp] theorem wrap32_s32 (w : Word) : wrap32 (s32 w) = w := BitVec.ofInt_toInt

theorem s32_injective {u v : Word} (h : s32 u = s32 v) : u = v := BitVec.eq_of_toInt_eq h

theorem wrap32_add (x y : Int) : wrap32 (x + y) = wrap32 x + wrap32 y := BitVec.ofInt_add x y

theorem wrap32_mul (x y : Int) : wrap32 (x * y) = wrap32 x * wrap32 y := BitVec.ofInt_mul x y

theorem wrap32_neg (x : Int) : wrap32 (-x) = -wrap32 x := BitVec.ofInt_neg

theorem wrap32_sub (x y : Int) : wrap32 (x - y) = wrap32 x - wrap32 y := by
  rw [Int.sub_eq_add_neg, wrap32_add, wrap32_neg, BitVec.sub_eq_add_neg]

@[simp] theorem wrap32_zero : wrap32 0 = 0 := rfl

/-- The unsigned reading, stored again, is the word. -/
@[simp] theorem wrap32_u32 (w : Word) : wrap32 (u32 w) = w := by
  rw [u32, wrap32, BitVec.ofInt_natCast, BitVec.ofNat_toNat, BitVec.setWidth_eq]

theorem u32_range (w : Word) : 0 ≤ u32 w ∧ u32 w < 4294967296 := by
  have h := w.isLt
  unfold u32
  omega

/-- A value in the unsigned range is read back unsigned. -/
theorem u32_wrap32_of_range {x : Int} (h₁ : 0 ≤ x) (h₂ : x < 4294967296) : u32 (wrap32 x) = x := by
  obtain ⟨n, rfl⟩ := Int.eq_ofNat_of_zero_le h₁
  have hn : n < 4294967296 := by omega
  rw [u32, wrap32, BitVec.ofInt_natCast, BitVec.toNat_ofNat, Nat.mod_eq_of_lt (by simpa using hn)]

theorem wrap32_sum (xs : List Int) : wrap32 xs.sum = (xs.map wrap32).sum := by
  induction xs with
  | nil => rfl
  | cons x xs ih => rw [List.sum_cons, wrap32_add, ih, List.map_cons, List.sum_cons]

end Sys2Proof

namespace Sys2Proof.Machine

/-! ## The MRE -/

/-- The floor remainder of R403 is the Euclidean one, for a positive modulus. -/
theorem modulus_eq_emod (num : Int) {m : Int} (hm : 0 < m) : modulus num m = num % m := by
  rw [modulus, Int.fdiv_eq_ediv_of_nonneg _ hm.le, Int.emod_def]

theorem modulus_nonneg (num : Int) {m : Int} (hm : 0 < m) : 0 ≤ modulus num m := by
  rw [modulus_eq_emod num hm]; exact Int.emod_nonneg num hm.ne'

theorem modulus_lt (num : Int) {m : Int} (hm : 0 < m) : modulus num m < m := by
  rw [modulus_eq_emod num hm]; exact Int.emod_lt_of_pos num hm

/-- Congruent numbers have one residue. -/
theorem modulus_eq_of_dvd {x y m : Int} (hm : 0 < m) (h : m ∣ x - y) : modulus x m = modulus y m := by
  rw [modulus_eq_emod x hm, modulus_eq_emod y hm]
  exact (Int.modEq_iff_dvd.2 h).symm

theorem dvd_sub_modulus (num : Int) {m : Int} (hm : 0 < m) : m ∣ num - modulus num m := by
  rw [modulus_eq_emod num hm]; exact Int.dvd_self_sub_emod

/-- The residue by a word's value fits a word. -/
theorem s32_wrap32_modulus (num : Int) {q : Word} (hq : 0 < s32 q) :
    s32 (wrap32 (modulus num (s32 q))) = modulus num (s32 q) := by
  have h₁ := modulus_nonneg num hq
  have h₂ := modulus_lt num hq
  have h₃ := (s32_range q).2
  exact s32_wrap32_of_range (by omega) (by omega)

/-! ## The MMA -/

theorem getElem_rowadd (U V : Row) (c : Fin 17) : (rowadd U V)[c] = U[c] + V[c] := by
  simp only [rowadd, Fin.getElem_fin, Vector.getElem_ofFn, wrap32_add, wrap32_s32]

/-- Word 16 of the row takes no part in the dot product. -/
theorem dot16_congr (K : Vector Word 16) {U V : Row} (h : ∀ c : Fin 16, U[c.castSucc] = V[c.castSucc]) :
    dot16 K U = dot16 K V := by
  simp only [dot16, h]

/-! ## The DEC unit -/

/-- `s` is the rounded quotient exactly when `(2s - 1)·add ≤ 2·value < (2s + 1)·add`. -/
theorem roundHalfUp_eq_iff {value add s : Int} (h : 0 < add) :
    roundHalfUp value add = s ↔ (2 * s - 1) * add ≤ 2 * value ∧ 2 * value < (2 * s + 1) * add := by
  have h2 : 0 < 2 * add := by omega
  rw [roundHalfUp, Int.fdiv_eq_ediv_of_nonneg _ h2.le, Int.ediv_eq_iff_of_pos h2]
  constructor
  · rintro ⟨h₁, h₂⟩; constructor <;> nlinarith
  · rintro ⟨h₁, h₂⟩; constructor <;> nlinarith

/-! ## The random source -/

theorem draw_range (raw : Nat) {lo hi : Int} (h : lo < hi) : lo ≤ draw raw lo hi ∧ draw raw lo hi < hi := by
  have hlt : raw % (hi - lo).toNat < (hi - lo).toNat := Nat.mod_lt _ (by omega)
  unfold draw
  omega

/-- Every integer of the range is the draw of some raw number. -/
theorem draw_of_range {lo hi x : Int} (h₁ : lo ≤ x) (h₂ : x < hi) : draw (x - lo).toNat lo hi = x := by
  unfold draw
  rw [Nat.mod_eq_of_lt (by omega)]
  omega

end Sys2Proof.Machine
end

