-- ==== Sys2Proof/Laws/Decode.lean ====
section
/-! SUPPORT. The fields of a command word as numbers, and what the decoder makes of them. -/

namespace Sys2Proof

theorem opField_eq (w : Word) : opField w = w.toNat % 256 := by
  simp [opField, BitVec.extractLsb'_toNat]

theorem rsvField_eq (w : Word) : rsvField w = w.toNat / 256 % 256 := by
  simp [rsvField, BitVec.extractLsb'_toNat, Nat.shiftRight_eq_div_pow]

theorem idxField_eq (w : Word) : idxField w = w.toNat / 65536 := by
  have h := w.isLt
  simp only [idxField, BitVec.extractLsb'_toNat, Nat.shiftRight_eq_div_pow]
  omega

theorem opField_lt (w : Word) : opField w < 256 := by rw [opField_eq]; omega

theorem idxField_lt (w : Word) : idxField w < 65536 := by
  have h := w.isLt
  rw [idxField_eq]
  omega

/-- A word is its three fields. -/
theorem toNat_eq_fields (w : Word) : w.toNat = idxField w * 65536 + rsvField w * 256 + opField w := by
  rw [opField_eq, rsvField_eq, idxField_eq]; omega

/-- R310: `(idx << 16) | OP` is the number `idx·65536 + OP`. -/
theorem commandWord_toNat {op idx : Nat} (ho : op < 256) (hi : idx < 65536) :
    (commandWord op idx).toNat = idx * 65536 + op := by
  have h : idx <<< 16 ||| op = idx <<< 16 + op := (Nat.shiftLeft_add_eq_or_of_lt (by omega) idx).symm
  rw [commandWord, BitVec.toNat_or, BitVec.toNat_shiftLeft, BitVec.toNat_ofNat, BitVec.toNat_ofNat,
    Nat.mod_eq_of_lt (by omega : idx < 2 ^ 32), Nat.mod_eq_of_lt (by omega : op < 2 ^ 32),
    Nat.mod_eq_of_lt (by rw [Nat.shiftLeft_eq]; omega), h, Nat.shiftLeft_eq]

theorem opField_commandWord {op idx : Nat} (ho : op < 256) (hi : idx < 65536) : opField (commandWord op idx) = op := by
  rw [opField_eq, commandWord_toNat ho hi]; omega

theorem rsvField_commandWord {op idx : Nat} (ho : op < 256) (hi : idx < 65536) :
    rsvField (commandWord op idx) = 0 := by
  rw [rsvField_eq, commandWord_toNat ho hi]; omega

theorem idxField_commandWord {op idx : Nat} (ho : op < 256) (hi : idx < 65536) :
    idxField (commandWord op idx) = idx := by
  rw [idxField_eq, commandWord_toNat ho hi]; omega

/-- The decoder, when RSV is 0. -/
theorem decode_of_rsv {w : Word} (h : rsvField w = 0) : decode w = decodeOp (opField w) (idxField w) := by
  simp [decode, h]

end Sys2Proof
end

