-- ==== Sys2Proof/Laws/Operands.lean ====
section
/-! SUPPORT. The key index spaces: where a word is defined, and that a write changes that word and no other. -/

namespace Sys2Proof.Machine

/-! ## The SK file -/

@[simp] theorem SecretKey.word?_16 (k : SecretKey) : k.word? 16 = some k.modulo := rfl
@[simp] theorem SecretKey.word?_17 (k : SecretKey) : k.word? 17 = some k.add := rfl
@[simp] theorem SecretKey.word?_18 (k : SecretKey) : k.word? 18 = some k.dim := rfl

theorem SecretKey.word?_key (k : SecretKey) {idx : Nat} (h : idx < 16) : k.word? idx = some k.key[idx] := by
  simp [word?, h]

/-- SK has 19 words. -/
theorem SecretKey.word?_eq_none_iff (k : SecretKey) (idx : Nat) : k.word? idx = none ↔ 18 < idx := by
  unfold word?
  repeat' split
  all_goals simp
  all_goals omega

theorem SecretKey.setWord?_eq_none_iff (k : SecretKey) (idx : Nat) (v : Word) :
    k.setWord? idx v = none ↔ 18 < idx := by
  unfold setWord?
  repeat' split
  all_goals simp
  all_goals omega

/-- Reading after a write: the written word, or the word that was there. -/
theorem SecretKey.word?_of_setWord? {k k' : SecretKey} {idx : Nat} {v : Word} (h : k.setWord? idx v = some k')
    (j : Nat) : k'.word? j = if j = idx then some v else k.word? j := by
  unfold setWord? at h
  split_ifs at h with h₁ h₂ h₃ h₄ <;> obtain rfl := Option.some.inj h <;> unfold word? <;> dsimp only
  · by_cases hj : j < 16
    · by_cases hji : j = idx
      · subst hji; simp [hj]
      · simp [hj, hji, Ne.symm hji]
    · have : j ≠ idx := by omega
      simp [hj, this]
  all_goals
    subst_vars
    split_ifs <;> first | rfl | omega

/-- The SK file is its nineteen words. -/
theorem SecretKey.ext_words {k k' : SecretKey} (h : ∀ idx, idx ≤ 18 → k.word? idx = k'.word? idx) : k = k' := by
  obtain ⟨key, m, a, d⟩ := k
  obtain ⟨key', m', a', d'⟩ := k'
  have hm := h 16 (by decide)
  have ha := h 17 (by decide)
  have hd := h 18 (by decide)
  simp only [word?_16, word?_17, word?_18, Option.some.injEq] at hm ha hd
  have hk : key = key' := Vector.ext fun i hi => by
    have := h i (by omega)
    rwa [word?_key _ hi, word?_key _ hi, Option.some.injEq] at this
  subst hk hm ha hd
  rfl

/-! ## The PK store -/

@[simp] theorem PublicKey.word?_2890 (k : PublicKey) : k.word? 2890 = some k.modulo := rfl
@[simp] theorem PublicKey.word?_2891 (k : PublicKey) : k.word? 2891 = some k.add := rfl
@[simp] theorem PublicKey.word?_2892 (k : PublicKey) : k.word? 2892 = some k.dim := rfl

theorem PublicKey.row_eq (k : PublicKey) {r : Nat} (h : r < 170) : k.row r = k.rows[r] := by
  simp [row, Vector.getD, Array.getD, h]

/-- R105: word `17·r + c` of the store is word `c` of row `r`. -/
theorem PublicKey.word?_row (k : PublicKey) {r c : Nat} (hr : r < 170) (hc : c < 17) :
    k.word? (17 * r + c) = some (k.row r)[c] := by
  have h : 17 * r + c < 2890 := by omega
  have hd : (17 * r + c) / 17 = r := by omega
  have hm : (17 * r + c) % 17 = c := by omega
  simp only [word?, h, dif_pos, row_eq k hr, hd, hm]

/-- PK has 2893 words. -/
theorem PublicKey.word?_eq_none_iff (k : PublicKey) (idx : Nat) : k.word? idx = none ↔ 2892 < idx := by
  unfold word?
  repeat' split
  all_goals simp
  all_goals omega

theorem PublicKey.setWord?_eq_none_iff (k : PublicKey) (idx : Nat) (v : Word) :
    k.setWord? idx v = none ↔ 2892 < idx := by
  unfold setWord?
  repeat' split
  all_goals simp
  all_goals omega

/-- Reading after a write: the written word, or the word that was there. -/
theorem PublicKey.word?_of_setWord? {k k' : PublicKey} {idx : Nat} {v : Word} (h : k.setWord? idx v = some k')
    (j : Nat) : k'.word? j = if j = idx then some v else k.word? j := by
  unfold setWord? at h
  split_ifs at h with h₁ h₂ h₃ h₄ <;> obtain rfl := Option.some.inj h <;> unfold word? <;> dsimp only
  · by_cases hj : j < 2890
    · by_cases hji : j = idx
      · subst hji; simp [hj]
      · by_cases hr : idx / 17 = j / 17
        · have hc : idx % 17 ≠ j % 17 := by omega
          simp [hj, hji, hr, hc]
        · simp [hj, hji, hr]
    · have : j ≠ idx := by omega
      simp [hj, this]
  all_goals
    subst_vars
    split_ifs <;> first | rfl | omega

/-- The PK store is its 2893 words. -/
theorem PublicKey.ext_words {k k' : PublicKey} (h : ∀ idx, idx ≤ 2892 → k.word? idx = k'.word? idx) : k = k' := by
  have hm := h 2890 (by decide)
  have ha := h 2891 (by decide)
  have hd := h 2892 (by decide)
  have hr : k.rows = k'.rows := Vector.ext fun r hr => Vector.ext fun c hc => by
    have := h (17 * r + c) (by omega)
    rwa [word?_row k hr hc, word?_row k' hr hc, Option.some.injEq, row_eq k hr, row_eq k' hr] at this
  obtain ⟨rows, m, a, d⟩ := k
  obtain ⟨rows', m', a', d'⟩ := k'
  simp only [word?_2890, word?_2891, word?_2892, Option.some.injEq] at hm ha hd
  subst hr hm ha hd
  rfl

end Sys2Proof.Machine
end

