-- ==== Sys2Proof/Laws/Ops.lean ====
section
/-! SUPPORT. The register window: which register an offset is, and everything a host access can do to the state. -/

namespace Sys2Proof.Machine

/-! ## The map of R202 -/

theorem windowReg_cmd : windowReg 0x000 = .cmd := rfl

theorem windowReg_status : windowReg 0x004 = .status := rfl

theorem windowReg_arg {i : Nat} (h : i < 17) : windowReg (argOffset i) = .arg ⟨i, h⟩ := by
  have h₁ : 0x040 + 4 * i ≠ 0x004 := by omega
  have h₂ : 0x040 + 4 * i < 0x084 := by omega
  simp [windowReg, argOffset, rowIndex, h₁, h₂, Nat.mod_eq_of_lt h]

theorem windowReg_res {i : Nat} (h : i < 17) : windowReg (resOffset i) = .res ⟨i, h⟩ := by
  have h₁ : 0x0C0 + 4 * i ≠ 0x004 := by omega
  have h₂ : 0x0C0 + 4 * i < 0x104 := by omega
  have h₃ : ¬ 0x0C0 + 4 * i < 0x084 := by omega
  simp [windowReg, resOffset, rowIndex, h₁, h₂, h₃, Nat.mod_eq_of_lt h]

theorem windowReg_reserved {off : Nat} (h : (0x008 ≤ off ∧ off < 0x040) ∨ (0x084 ≤ off ∧ off < 0x0C0) ∨ 0x104 ≤ off) :
    windowReg off = .reserved := by
  unfold windowReg
  split_ifs <;> first | rfl | omega

theorem windowOffset_base {off : Nat} (h : off < 0x1000) : windowOffset (Config.base + off) = some off := by
  simp [windowOffset, h]

/-! ## Reads -/

/-- A read leaves every register; at most it takes a free value (R208). -/
theorem memRead_state (off : Nat) (s : State) :
    (memRead off s).2 = s ∨ (memRead off s).2 = { s with fresh := s.fresh + 1 } := by
  unfold memRead
  repeat' split
  all_goals simp

theorem memRead_status {s : State} (h : s.rst = false) : memRead 0x004 s = (s.status.toWord, s) := by
  simp [memRead, h, windowReg_status]

theorem memRead_res {s : State} {i : Nat} (hi : i < 17) (h : s.rst = false) (hb : s.status.busy = false) :
    memRead (resOffset i) s = (s.res[i], s) := by
  simp [memRead, h, hb, windowReg_res hi]

/-! ## Writes -/

/-- What a write can do: nothing, lose itself and set OVR, issue a command, or store an ARG word (R202, R204 to R206). -/
theorem memWrite_cases (off : Nat) (v : Word) (s : State) :
    memWrite off v s = s ∨
    (s.rst = false ∧ s.status.busy = true ∧ memWrite off v s = { s with status := s.status.overrun }) ∨
    (s.rst = false ∧ s.status.busy = false ∧ memWrite off v s = issue v s) ∨
    (s.rst = false ∧ s.status.busy = false ∧ ∃ i : Fin 17, memWrite off v s = { s with arg := s.arg.set i v }) := by
  unfold memWrite
  cases hr : s.rst <;> cases hb : s.status.busy <;> cases windowReg off <;> simp
  case false.false.arg i => exact .inr (.inr ⟨i, rfl⟩)

theorem memWrite_cmd {s : State} (v : Word) (h : s.rst = false) (hb : s.status.busy = false) :
    memWrite 0x000 v s = issue v s := by
  simp [memWrite, h, hb, windowReg_cmd]

theorem memWrite_arg {s : State} {i : Nat} (hi : i < 17) (v : Word) (h : s.rst = false) (hb : s.status.busy = false) :
    memWrite (argOffset i) v s = { s with arg := s.arg.set i v } := by
  simp [memWrite, h, hb, windowReg_arg hi]

theorem memWrite_running {s : State} (off : Nat) (v : Word) (hb : s.status.busy = true) :
    memWrite off v s = s ∨ memWrite off v s = { s with status := s.status.overrun } := by
  rcases memWrite_cases off v s with h | ⟨-, -, h⟩ | ⟨-, h, -⟩ | ⟨-, h, -⟩
  · exact .inl h
  · exact .inr h
  · simp [hb] at h
  · simp [hb] at h

/-- In the reset state every write is ignored and every read answers 0 (R801). -/
theorem memWrite_of_rst {s : State} (off : Nat) (v : Word) (h : s.rst = true) : memWrite off v s = s := by
  simp [memWrite, h]

theorem memRead_of_rst {s : State} (off : Nat) (h : s.rst = true) : memRead off s = (0, s) := by
  simp [memRead, h]

/-! ## Bus accesses -/

/-- A load changes nothing but the answers and the index of free values. -/
theorem busRead_cases (addr : Nat) (width : AccessWidth) (s : State) :
    ∃ (f : Nat) (rs : List HostResponse), busRead addr width s = { s with fresh := f, responses := rs } := by
  cases ho : windowOffset addr with
  | none => exact ⟨s.fresh, s.responses, by simp [busRead, ho]⟩
  | some off =>
    cases hadm : admitted off width with
    | false => exact ⟨s.fresh, _, by simp [busRead, ho, hadm, State.respond]; rfl⟩
    | true =>
      rcases memRead_state off s with h | h
      · exact ⟨s.fresh, _, by simp [busRead, ho, hadm, h, State.respond]; rfl⟩
      · exact ⟨s.fresh + 1, _, by simp [busRead, ho, hadm, h, State.respond]; rfl⟩

/-- A store is a write of the window, or nothing, and an answer. -/
theorem busWrite_cases (addr : Nat) (width : AccessWidth) (v : Word) (s : State) :
    (∃ off rs, busWrite addr width v s = { memWrite off v s with responses := rs }) ∨
    (∃ rs, busWrite addr width v s = { s with responses := rs }) := by
  cases ho : windowOffset addr with
  | none => exact .inr ⟨s.responses, by simp [busWrite, ho]⟩
  | some off =>
    cases hadm : admitted off width with
    | false => exact .inr ⟨_, by simp [busWrite, ho, hadm, State.respond]; rfl⟩
    | true => exact .inl ⟨off, _, by simp [busWrite, ho, hadm, State.respond]; rfl⟩

end Sys2Proof.Machine
end

