-- ==== Sys2Proof/Laws/Exec.lean ====
section
/-! SUPPORT. What the completion of a command can do to the state, and what the host agent can do meanwhile. -/

namespace Sys2Proof.Machine

/-! ## Completions -/

theorem commit_eq (s : State) : commit s = .next { s with status := s.status.completed .noError } := rfl

theorem raiseCmdError_eq (c : ErrCode) (s : State) :
    raiseCmdError c s = .next { s with status := s.status.completed c } := rfl

/-! One lemma for each way a meaning can go. -/

theorem execNop_eq (s : State) : exec .nop s = .next { s with status := ⟨false, true, .noError, false⟩ } := rfl

theorem execModred_param {s : State} (h : s32 s.arg[1] ≤ 0) : exec .modred s = raiseCmdError .param s := if_pos h

theorem execModred_ok {s : State} (h : 0 < s32 s.arg[1]) :
    exec .modred s = commit { s with res := s.res.set 0 (wrap32 (modulus (s32 s.arg[0]) (s32 s.arg[1]))) } :=
  if_neg (not_le.2 h)

theorem execPkgenFrom_ok (src : Nat → Nat) {s : State} (h : KeyOk s.sk.modulo s.sk.add s.sk.dim) :
    execPkgenFrom src s = commit { s with pk := freshPublicKey src s.sk s.fresh, fresh := s.fresh + 2890 } := if_pos h

theorem execPkgenFrom_param (src : Nat → Nat) {s : State} (h : ¬ KeyOk s.sk.modulo s.sk.add s.sk.dim) :
    execPkgenFrom src s = raiseCmdError .param s := if_neg h

theorem execEnccharFrom_ok (src : Nat → Nat) {s : State} (h : KeyOk s.pk.modulo s.pk.add s.pk.dim)
    (hv : IsScalar (u32 s.arg[0])) :
    execEnccharFrom src s =
      commit { s with res := encChunk s.pk (u32 s.arg[0]) (drawRows src (s.fresh + 1) (drawCount src s.fresh)),
                      fresh := s.fresh + 1 + drawCount src s.fresh } :=
  (if_pos h).trans (if_pos hv)

theorem execEnccharFrom_badChar (src : Nat → Nat) {s : State} (h : KeyOk s.pk.modulo s.pk.add s.pk.dim)
    (hv : ¬ IsScalar (u32 s.arg[0])) : execEnccharFrom src s = raiseCmdError .badChar s :=
  (if_pos h).trans (if_neg hv)

theorem execEnccharFrom_param (src : Nat → Nat) {s : State} (h : ¬ KeyOk s.pk.modulo s.pk.add s.pk.dim) :
    execEnccharFrom src s = raiseCmdError .param s := if_neg h

theorem execDecchunk_ok {s : State} (h : KeyOk s.sk.modulo s.sk.add s.sk.dim) (hv : IsScalar (decScalar s.sk s.arg)) :
    exec .decchunk s = commit { s with res := s.res.set 0 (wrap32 (decScalar s.sk s.arg)) } :=
  (if_pos h).trans (if_pos hv)

theorem execDecchunk_scalar {s : State} (h : KeyOk s.sk.modulo s.sk.add s.sk.dim)
    (hv : ¬ IsScalar (decScalar s.sk s.arg)) : exec .decchunk s = raiseCmdError .scalar s :=
  (if_pos h).trans (if_neg hv)

theorem execDecchunk_param {s : State} (h : ¬ KeyOk s.sk.modulo s.sk.add s.sk.dim) :
    exec .decchunk s = raiseCmdError .param s := if_neg h

theorem execRdsk_ok {s : State} {idx : Nat} {w : Word} (h : s.sk.word? idx = some w) :
    exec (.rdsk idx) s = commit { s with res := s.res.set 0 w } := by simp only [exec, execRdsk, h]

theorem execRdsk_index {s : State} {idx : Nat} (h : s.sk.word? idx = none) :
    exec (.rdsk idx) s = raiseCmdError .index s := by simp only [exec, execRdsk, h]

theorem execWrsk_ok {s : State} {idx : Nat} {k : SecretKey} (h : s.sk.setWord? idx s.arg[0] = some k) :
    exec (.wrsk idx) s = commit { s with sk := k } := by simp only [exec, execWrsk, h]

theorem execWrsk_index {s : State} {idx : Nat} (h : s.sk.setWord? idx s.arg[0] = none) :
    exec (.wrsk idx) s = raiseCmdError .index s := by simp only [exec, execWrsk, h]

theorem execRdpk_ok {s : State} {idx : Nat} {w : Word} (h : s.pk.word? idx = some w) :
    exec (.rdpk idx) s = commit { s with res := s.res.set 0 w } := by simp only [exec, execRdpk, h]

theorem execRdpk_index {s : State} {idx : Nat} (h : s.pk.word? idx = none) :
    exec (.rdpk idx) s = raiseCmdError .index s := by simp only [exec, execRdpk, h]

theorem execWrpk_ok {s : State} {idx : Nat} {k : PublicKey} (h : s.pk.setWord? idx s.arg[0] = some k) :
    exec (.wrpk idx) s = commit { s with pk := k } := by simp only [exec, execWrpk, h]

theorem execWrpk_index {s : State} {idx : Nat} (h : s.pk.setWord? idx s.arg[0] = none) :
    exec (.wrpk idx) s = raiseCmdError .index s := by simp only [exec, execWrpk, h]

/-- Every meaning is an error completion, or a commit of writes to RES, SK, PK, OVR and the index of free values. -/
theorem exec_cases (i : Instr) (s : State) :
    (∃ c, c ≠ .noError ∧ exec i s = raiseCmdError c s) ∨
    (∃ (res : Row) (sk : SecretKey) (pk : PublicKey) (ovr : Bool) (fresh : Nat),
      exec i s = commit { s with res := res, sk := sk, pk := pk, fresh := fresh,
                                 status := ⟨s.status.busy, s.status.done, s.status.err, ovr⟩ }) := by
  cases i with
  | nop => exact .inr ⟨s.res, s.sk, s.pk, false, s.fresh, rfl⟩
  | modred =>
    by_cases h : s32 s.arg[1] ≤ 0
    · exact .inl ⟨_, by decide, execModred_param h⟩
    · exact .inr ⟨_, s.sk, s.pk, s.status.ovr, s.fresh, execModred_ok (not_le.1 h)⟩
  | skgen => exact .inr ⟨s.res, freshSecretKey Config.drawSource s.fresh, s.pk, s.status.ovr, s.fresh + 17, rfl⟩
  | pkgen =>
    by_cases h : KeyOk s.sk.modulo s.sk.add s.sk.dim
    · exact .inr ⟨s.res, s.sk, freshPublicKey Config.drawSource s.sk s.fresh, s.status.ovr, s.fresh + 2890,
        execPkgenFrom_ok _ h⟩
    · exact .inl ⟨_, by decide, execPkgenFrom_param _ h⟩
  | encchar =>
    by_cases h : KeyOk s.pk.modulo s.pk.add s.pk.dim
    · by_cases hv : IsScalar (u32 s.arg[0])
      · exact .inr ⟨_, s.sk, s.pk, s.status.ovr, _, execEnccharFrom_ok _ h hv⟩
      · exact .inl ⟨_, by decide, execEnccharFrom_badChar _ h hv⟩
    · exact .inl ⟨_, by decide, execEnccharFrom_param _ h⟩
  | decchunk =>
    by_cases h : KeyOk s.sk.modulo s.sk.add s.sk.dim
    · by_cases hv : IsScalar (decScalar s.sk s.arg)
      · exact .inr ⟨_, s.sk, s.pk, s.status.ovr, s.fresh, execDecchunk_ok h hv⟩
      · exact .inl ⟨_, by decide, execDecchunk_scalar h hv⟩
    · exact .inl ⟨_, by decide, execDecchunk_param h⟩
  | rdsk idx =>
    cases h : s.sk.word? idx with
    | none => exact .inl ⟨_, by decide, execRdsk_index h⟩
    | some w => exact .inr ⟨_, s.sk, s.pk, s.status.ovr, s.fresh, execRdsk_ok h⟩
  | wrsk idx =>
    cases h : s.sk.setWord? idx s.arg[0] with
    | none => exact .inl ⟨_, by decide, execWrsk_index h⟩
    | some k => exact .inr ⟨s.res, k, s.pk, s.status.ovr, s.fresh, execWrsk_ok h⟩
  | rdpk idx =>
    cases h : s.pk.word? idx with
    | none => exact .inl ⟨_, by decide, execRdpk_index h⟩
    | some w => exact .inr ⟨_, s.sk, s.pk, s.status.ovr, s.fresh, execRdpk_ok h⟩
  | wrpk idx =>
    cases h : s.pk.setWord? idx s.arg[0] with
    | none => exact .inl ⟨_, by decide, execWrpk_index h⟩
    | some k => exact .inr ⟨s.res, s.sk, k, s.status.ovr, s.fresh, execWrpk_ok h⟩

/-- A completion of the latched word, legal or not, is one of the same two. -/
theorem completeCommand_cases (s : State) :
    (∃ c, c ≠ .noError ∧ completeCommand s = raiseCmdError c s) ∨
    (∃ (res : Row) (sk : SecretKey) (pk : PublicKey) (ovr : Bool) (fresh : Nat),
      completeCommand s = commit { s with res := res, sk := sk, pk := pk, fresh := fresh,
                                          status := ⟨s.status.busy, s.status.done, s.status.err, ovr⟩ }) := by
  unfold completeCommand
  cases decode s.cur with
  | command i => exact exec_cases i s
  | illegal why => exact .inl ⟨.illegal, by decide, rfl⟩

/-- A completion ends in a next state with BUSY = 0 and DONE = 1. -/
theorem completeCommand_next (s : State) :
    ∃ t, completeCommand s = .next t ∧ t.status.busy = false ∧ t.status.done = true ∧ t.rst = s.rst ∧ t.arg = s.arg ∧
      t.pending = s.pending ∧ t.responses = s.responses ∧ t.latency = s.latency ∧ t.cur = s.cur := by
  rcases completeCommand_cases s with ⟨c, -, h⟩ | ⟨_, _, _, _, _, h⟩ <;>
    exact ⟨_, h, rfl, rfl, rfl, rfl, rfl, rfl, rfl, rfl⟩

/-- The fields that hold the outside world's side, replaced. -/
def State.withOutside (s : State) (latency : Nat) (pending : List HostEvent) (responses : List HostResponse) : State :=
  { s with latency := latency, pending := pending, responses := responses }

/-- The outcome with those fields replaced in its state. -/
def outcomeWithOutside (latency : Nat) (pending : List HostEvent) (responses : List HostResponse) :
    Host.Outcome State Fault Refusal → Host.Outcome State Fault Refusal
  | .next t => .next (t.withOutside latency pending responses)
  | .fault r => .fault r
  | .refused r => .refused r

/-- No meaning reads the outside world's side. -/
theorem exec_withOutside (i : Instr) (s : State) (l : Nat) (p : List HostEvent) (r : List HostResponse) :
    exec i (s.withOutside l p r) = outcomeWithOutside l p r (exec i s) := by
  have lift : ∀ {a b a' b' : Host.Outcome State Fault Refusal}, a = a' → b = b' → a' = outcomeWithOutside l p r b' →
      a = outcomeWithOutside l p r b := by
    rintro _ _ _ _ rfl rfl h
    exact h
  cases i with
  | nop => rfl
  | skgen => rfl
  | modred =>
    by_cases h : s32 s.arg[1] ≤ 0
    · exact lift (execModred_param (s := s.withOutside l p r) h) (execModred_param h) rfl
    · exact lift (execModred_ok (s := s.withOutside l p r) (not_le.1 h)) (execModred_ok (not_le.1 h)) rfl
  | pkgen =>
    by_cases h : KeyOk s.sk.modulo s.sk.add s.sk.dim
    · exact lift (execPkgenFrom_ok _ (s := s.withOutside l p r) h) (execPkgenFrom_ok _ h) rfl
    · exact lift (execPkgenFrom_param _ (s := s.withOutside l p r) h) (execPkgenFrom_param _ h) rfl
  | encchar =>
    by_cases h : KeyOk s.pk.modulo s.pk.add s.pk.dim
    · by_cases hv : IsScalar (u32 s.arg[0])
      · exact lift (execEnccharFrom_ok _ (s := s.withOutside l p r) h hv) (execEnccharFrom_ok _ h hv) rfl
      · exact lift (execEnccharFrom_badChar _ (s := s.withOutside l p r) h hv) (execEnccharFrom_badChar _ h hv) rfl
    · exact lift (execEnccharFrom_param _ (s := s.withOutside l p r) h) (execEnccharFrom_param _ h) rfl
  | decchunk =>
    by_cases h : KeyOk s.sk.modulo s.sk.add s.sk.dim
    · by_cases hv : IsScalar (decScalar s.sk s.arg)
      · exact lift (execDecchunk_ok (s := s.withOutside l p r) h hv) (execDecchunk_ok h hv) rfl
      · exact lift (execDecchunk_scalar (s := s.withOutside l p r) h hv) (execDecchunk_scalar h hv) rfl
    · exact lift (execDecchunk_param (s := s.withOutside l p r) h) (execDecchunk_param h) rfl
  | rdsk idx =>
    cases h : s.sk.word? idx with
    | none => exact lift (execRdsk_index (s := s.withOutside l p r) h) (execRdsk_index h) rfl
    | some w => exact lift (execRdsk_ok (s := s.withOutside l p r) h) (execRdsk_ok h) rfl
  | wrsk idx =>
    cases h : s.sk.setWord? idx s.arg[0] with
    | none => exact lift (execWrsk_index (s := s.withOutside l p r) h) (execWrsk_index h) rfl
    | some k => exact lift (execWrsk_ok (s := s.withOutside l p r) h) (execWrsk_ok h) rfl
  | rdpk idx =>
    cases h : s.pk.word? idx with
    | none => exact lift (execRdpk_index (s := s.withOutside l p r) h) (execRdpk_index h) rfl
    | some w => exact lift (execRdpk_ok (s := s.withOutside l p r) h) (execRdpk_ok h) rfl
  | wrpk idx =>
    cases h : s.pk.setWord? idx s.arg[0] with
    | none => exact lift (execWrpk_index (s := s.withOutside l p r) h) (execWrpk_index h) rfl
    | some k => exact lift (execWrpk_ok (s := s.withOutside l p r) h) (execWrpk_ok h) rfl

theorem completeCommand_withOutside (s : State) (l : Nat) (p : List HostEvent) (r : List HostResponse) :
    completeCommand (s.withOutside l p r) = outcomeWithOutside l p r (completeCommand s) := by
  simp only [completeCommand, show (s.withOutside l p r).cur = s.cur from rfl]
  cases decode s.cur with
  | command i => exact exec_withOutside i s l p r
  | illegal why => rfl

/-! ## Steps -/

/-- Everything one step can do: the engine completes the command in progress, the host's next event happens, or nothing
does. -/
theorem step_cases (s : State) :
    (s.rst = false ∧ s.status.busy = true ∧ (s.latency = 0 ∨ s.pending = []) ∧ step s = completeCommand s) ∨
    (s.rst = false ∧ s.status.busy = true ∧ ∃ n e rest, s.latency = n + 1 ∧ s.pending = e :: rest ∧
      step s = .next (hostMove e rest { s with latency := n })) ∨
    ((s.rst = true ∨ s.status.busy = false) ∧ ∃ e rest, s.pending = e :: rest ∧ step s = .next (hostMove e rest s)) ∨
    ((s.rst = true ∨ s.status.busy = false) ∧ s.pending = [] ∧ step s = .next s) := by
  obtain ⟨arg, res, sk, pk, cur, ⟨busy, done, err, ovr⟩, rst, latency, fresh, pending, responses⟩ := s
  cases rst <;> cases busy <;> cases latency <;> cases pending <;> simp [step, advance, engineIdle, hostTurn]

/-- What one event of the outside world can do: a reset, or lose a write, issue a command, store an ARG word, or nothing
but an answer. -/
theorem hostMove_cases (e : HostEvent) (rest : List HostEvent) (s : State) :
    (e = .assertReset ∧ hostMove e rest s = resetRegisters true { s with pending := rest }) ∨
    (e = .deassertReset ∧ s.rst = true ∧ hostMove e rest s = resetRegisters false { s with pending := rest }) ∨
    (∃ (f : Nat) (p : List HostEvent) (rs : List HostResponse),
      hostMove e rest s = { s with fresh := f, pending := p, responses := rs }) ∨
    (s.rst = false ∧ s.status.busy = true ∧ ∃ (rs : List HostResponse),
      hostMove e rest s = { s with status := s.status.overrun, pending := rest, responses := rs }) ∨
    (s.rst = false ∧ s.status.busy = false ∧ ∃ (w : Word) (rs : List HostResponse),
      hostMove e rest s = { issue w s with pending := rest, responses := rs }) ∨
    (s.rst = false ∧ s.status.busy = false ∧ ∃ (i : Fin 17) (w : Word) (rs : List HostResponse),
      hostMove e rest s = { s with arg := s.arg.set i w, pending := rest, responses := rs }) := by
  cases e with
  | read addr width =>
    obtain ⟨f, rs, h⟩ := busRead_cases addr width { s with pending := rest }
    exact .inr (.inr (.inl ⟨f, rest, rs, h⟩))
  | write addr width v =>
    rcases busWrite_cases addr width v { s with pending := rest } with ⟨off, rs, h⟩ | ⟨rs, h⟩
    · rcases memWrite_cases off v { s with pending := rest } with hw | ⟨hr, hb, hw⟩ | ⟨hr, hb, hw⟩ | ⟨hr, hb, i, hw⟩
      · exact .inr (.inr (.inl ⟨s.fresh, rest, rs, by rw [hostMove, h, hw]⟩))
      · exact .inr (.inr (.inr (.inl ⟨hr, hb, rs, by rw [hostMove, h, hw]⟩)))
      · exact .inr (.inr (.inr (.inr (.inl ⟨hr, hb, v, rs, by rw [hostMove, h, hw]; rfl⟩))))
      · exact .inr (.inr (.inr (.inr (.inr ⟨hr, hb, i, v, rs, by rw [hostMove, h, hw]⟩))))
    · exact .inr (.inr (.inl ⟨s.fresh, rest, rs, h⟩))
  | wait =>
    refine .inr (.inr (.inl ?_))
    unfold hostMove
    dsimp only
    split
    · exact ⟨s.fresh, s.pending, _, rfl⟩
    · exact ⟨s.fresh, rest, _, rfl⟩
  | assertReset => exact .inl ⟨rfl, rfl⟩
  | deassertReset =>
    cases hr : s.rst with
    | true => exact .inr (.inl ⟨rfl, rfl, by simp [hostMove, releaseReset, hr]⟩)
    | false => exact .inr (.inr (.inl ⟨s.fresh, rest, s.responses, by simp [hostMove, releaseReset, hr]⟩))

/-! ## The driver -/

/-- EXEC on a block that is ready: the command is issued, completes, and its ERR field is the answer. -/
theorem hostExec_ready {s : State} (w : Word) (hr : s.rst = false) (hb : s.status.busy = false) :
    ∃ t, completeCommand (issue w s) = .next t ∧ t.rst = false ∧ t.status.busy = false ∧
      hostExec w s =
        (if errField t.status.toWord = 0 then (.ok (), t) else (.error (.command (errField t.status.toWord)), t)) := by
  obtain ⟨t, ht, hbt, -, hrt, -⟩ := completeCommand_next (issue w s)
  have hrt' : t.rst = false := hrt.trans hr
  refine ⟨t, ht, hrt', hbt, ?_⟩
  simp [hostExec, memWrite_cmd w hr hb, waitDone, engineIdle, hr, ht, memRead_status hrt']

end Sys2Proof.Machine
end

