-- ==== Sys2Proof/Laws/PerInstr.lean ====
section
/-! SUPPORT. Statements for all commands, one lemma for each constructor of `Instr`. -/

/-- The command word of a well-formed command has the command's OP, RSV = 0, and the command's index, or 0, in IDX
(30_encoding.md R301, R304). -/
def Sys2Proof.Laws.EncodedFields.Statement (i : Sys2Proof.Instr) : Prop :=
  i.wellFormed = true →
    Sys2Proof.opField (Sys2Proof.encode i) = i.opcode ∧ Sys2Proof.rsvField (Sys2Proof.encode i) = 0 ∧
      Sys2Proof.idxField (Sys2Proof.encode i) = i.index?.getD 0

namespace Sys2Proof.Laws.EncodedFields

/-- The fields of any command word whose OP and IDX fit their fields. -/
theorem of_fits {i : Instr} (ho : i.opcode < 256) (hi : i.index?.getD 0 < 65536) : Statement i := fun _ =>
  ⟨opField_commandWord ho hi, rsvField_commandWord ho hi, idxField_commandWord ho hi⟩

theorem nop : Statement .nop := of_fits (by decide) (by decide)
theorem modred : Statement .modred := of_fits (by decide) (by decide)
theorem skgen : Statement .skgen := of_fits (by decide) (by decide)
theorem pkgen : Statement .pkgen := of_fits (by decide) (by decide)
theorem encchar : Statement .encchar := of_fits (by decide) (by decide)
theorem decchunk : Statement .decchunk := of_fits (by decide) (by decide)
theorem rdsk (idx : Nat) : Statement (.rdsk idx) := fun h =>
  of_fits (show 0x06 < 256 by decide) (of_decide_eq_true h) h
theorem wrsk (idx : Nat) : Statement (.wrsk idx) := fun h =>
  of_fits (show 0x07 < 256 by decide) (of_decide_eq_true h) h
theorem rdpk (idx : Nat) : Statement (.rdpk idx) := fun h =>
  of_fits (show 0x08 < 256 by decide) (of_decide_eq_true h) h
theorem wrpk (idx : Nat) : Statement (.wrpk idx) := fun h =>
  of_fits (show 0x09 < 256 by decide) (of_decide_eq_true h) h

end Sys2Proof.Laws.EncodedFields
end

