-- ==== Sys2Proof/Tests/Slice0.lean ====
section
/-! SUPPORT. The model's own tests: the refused terms of WellFormed, words written out from the spec's encoding, single
steps whose results stand in 95_test_vectors.md, and, for every statement with hypotheses, a concrete case that meets
them. -/

namespace Sys2Proof.Tests

open Sys2Proof.Machine Sys2Proof.Safety

/-! ## States of 95_test_vectors.md -/

/-- The row `(x, 0 ×15, y)`. -/
def rowOf (x y : Int) : Row := (zeroRow.set 0 (wrap32 x)).set 16 (wrap32 y)

/-- K1. -/
def keyK1 : SecretKey := { key := (Vector.replicate 16 0).set 0 1, modulo := 11141110, add := 10, dim := 16 }

/-- P1, the rows from 2 on being `(0 ×17)`: all coefficients and the noise drawn as 0. -/
def keyP1 : PublicKey :=
  { rows := ((Vector.replicate 170 zeroRow).set 0 (rowOf 5 4)).set 1 (rowOf (-7) 11141103),
    modulo := 11141110, add := 10, dim := 16 }

/-- The noise of P1's rows (T-PKG-1). -/
def noiseP1 (r : Fin 170) : Int := if r = 0 then -1 else 0

/-- The secret key of T-PKG-2, with fuzz = 0, and a public key of it. -/
def keyK0 : SecretKey := { keyK1 with modulo := 11120640, add := 9 }
def keyP0 : PublicKey :=
  { rows := (Vector.replicate 170 zeroRow).set 0 (rowOf 3 3), modulo := 11120640, add := 9, dim := 16 }

/-- A block that is ready, with K1 and P1, and `x`, `y` in ARG[0] and ARG[16]. -/
def ready (x y : Int) : State := { State.reset with arg := rowOf x y, sk := keyK1, pk := keyP1 }

/-- That block with the command word `w` in progress. -/
def running (w : Word) (x y : Int) : State := { ready x y with cur := w, status := Status.reset.issued }

/-- A block held in reset. -/
def held (pending : List HostEvent) : State := { State.reset with rst := true, pending := pending }

/-- What an outcome's next state shows under `f`. -/
def seen {α : Type} (f : State → α) : Host.Outcome State Fault Refusal → Option α
  | .next t => some (f t)
  | .fault _ => none
  | .refused _ => none

/-- RES[0] and the STATUS word. -/
def resStatus (t : State) : Word × Word := (t.res[0], t.status.toWord)

/-! ## WellFormed refuses ill-formed terms (R301, R302) -/

theorem test_rdsk_index_too_wide : (Instr.rdsk 65536).wellFormed = false := by decide
theorem test_wrsk_index_too_wide : (Instr.wrsk 65536).wellFormed = false := by decide
theorem test_rdpk_index_too_wide : (Instr.rdpk 65536).wellFormed = false := by decide
theorem test_wrpk_index_too_wide : (Instr.wrpk 100000).wellFormed = false := by decide

/-! ## Words written out bit by bit as IDX, RSV, OP (R301, R304; T-ENC-1 to T-ENC-8) -/

theorem test_decode_nop : decode 0b0000000000000000_00000000_00000000#32 = .command .nop := by decide
theorem test_decode_modred : decode 0b0000000000000000_00000000_00000001#32 = .command .modred := by decide
theorem test_decode_skgen : decode 0b0000000000000000_00000000_00000010#32 = .command .skgen := by decide
theorem test_decode_pkgen : decode 0b0000000000000000_00000000_00000011#32 = .command .pkgen := by decide
theorem test_decode_encchar : decode 0b0000000000000000_00000000_00000100#32 = .command .encchar := by decide
theorem test_decode_decchunk : decode 0b0000000000000000_00000000_00000101#32 = .command .decchunk := by decide
theorem test_decode_rdsk : decode 0b0000000000010000_00000000_00000110#32 = .command (.rdsk 16) := by decide
theorem test_decode_wrsk : decode 0b0000000000010001_00000000_00000111#32 = .command (.wrsk 17) := by decide
theorem test_decode_rdpk : decode 0b0000101101001010_00000000_00001000#32 = .command (.rdpk 2890) := by decide
theorem test_decode_wrpk : decode 0b0000101101001100_00000000_00001001#32 = .command (.wrpk 2892) := by decide
theorem test_decode_widest_index : decode 0b1111111111111111_00000000_00000110#32 = .command (.rdsk 65535) := by decide
theorem test_decode_table_word : decodeTableWord 32 0x00110007 = some (.wrsk 17) := by decide

/-- T-ENC-9, T-ENC-10. -/
theorem test_illegal_opcode : decode 0x0000000A = .illegal .opcodeUnassigned ∧
    decode 0x000000FF = .illegal .opcodeUnassigned := by decide
/-- T-ENC-12, T-ENC-13, T-SKG-5. -/
theorem test_illegal_index : decode 0x00010000 = .illegal .indexNonzero ∧ decode 0x00010005 = .illegal .indexNonzero ∧
    decode 0x00010002 = .illegal .indexNonzero := by decide
/-- T-ENC-11, T-ENC-14, T-ENC-15. -/
theorem test_illegal_reserved : decode 0x00000100 = .illegal .reservedNonzero ∧
    decode 0x00120106 = .illegal .reservedNonzero ∧ decode 0xFFFFFFFF = .illegal .reservedNonzero := by decide

/-! ## The commands, on the vectors of 95_test_vectors.md -/

/-- T-NOP-1. -/
theorem test_nop_clears_overrun :
    seen (·.status.toWord) (exec .nop { ready 0 0 with status := ⟨true, false, .noError, true⟩ }) = some 0x002 := by decide
/-- T-NOP-3. -/
theorem test_illegal_nop_keeps_overrun :
    seen (·.status.toWord) (completeCommand { running 0x00010000 0 0 with status := ⟨true, false, .noError, true⟩ }) =
      some 0x112 := by decide

/-- T-MOD-8. -/
theorem test_modred_least_number :
    seen resStatus (exec .modred { ready 0 0 with arg := (rowOf (-2147483648) 0).set 1 2147483647 }) =
      some (2147483646, 0x002) := by decide
/-- T-MOD-15. -/
theorem test_modred_negative_modulus :
    seen resStatus (exec .modred { ready 0 0 with arg := (rowOf 5 0).set 1 (-5) }) = some (0, 0x032) := by decide

/-- The draws of T-SKG-1, as raw numbers above the least value of each range. -/
def sourceK1 (n : Nat) : Nat := if n = 0 then 11141110 - 11120640 else if n = 1 then 1 + 4096 else 4096
/-- T-SKG-1. -/
theorem test_skgen_K1 :
    seen (fun t => (t.sk, t.status.toWord)) (execSkgenFrom sourceK1 State.reset) = some (keyK1, 0x002) := by decide +kernel
/-- T-SKG-3. -/
theorem test_skgen_highest :
    secretKeyOf 111206399 (Vector.replicate 16 4095) =
      { key := Vector.replicate 16 4095, modulo := 111206399, add := 99, dim := 16 } := by decide +kernel

/-- T-PKG-1. -/
theorem test_pkgen_rows :
    publicRow keyK1 ((Vector.replicate 16 0).set 0 5) (-1) = rowOf 5 4 ∧
    publicRow keyK1 ((Vector.replicate 16 0).set 0 (-7)) 0 = rowOf (-7) 11141103 := by decide +kernel
/-- T-PKG-4. -/
theorem test_pkgen_wraps :
    publicRow { keyK1 with key := (Vector.replicate 16 0).set 0 2147483647 } ((Vector.replicate 16 0).set 0 2) 0 =
      rowOf 2 11141108 := by decide +kernel

/-- The draws r = 2, j = 0, 1 of T-ENCC-1. -/
def sourceE (n : Nat) : Nat := if n = 2 then 1 else 0
/-- T-ENCC-1. -/
theorem test_encchar_A :
    seen (fun t => (t.res, t.status.toWord)) (execEnccharFrom sourceE (ready 65 0)) = some (rowOf (-2) 647, 0x002) := by
  decide +kernel
/-- T-ENCC-9, T-ENCC-13. -/
theorem test_encchar_surrogate :
    seen (fun t => (t.res, t.status.toWord)) (exec .encchar (ready 0xD800 0)) = some (zeroRow, 0x042) ∧
    seen (fun t => (t.res, t.status.toWord)) (exec .encchar { State.reset with arg := rowOf 0xD800 0 }) =
      some (zeroRow, 0x032) := by decide +kernel

/-- T-DEC-3, T-DEC-18. -/
theorem test_decchunk_tie_and_wrap :
    seen resStatus (exec .decchunk (ready 0 645)) = some (65, 0x002) ∧
    seen resStatus (exec .decchunk (ready 2147483647 (-2147483648))) = some (0, 0x002) := by decide
/-- T-DEC-13, T-DEC-20. -/
theorem test_decchunk_no_scalar :
    seen resStatus (exec .decchunk (ready 0 552960)) = some (0, 0x052) ∧
    seen resStatus (exec .decchunk { ready 0 111206398 with sk := ⟨keyK1.key, 111206399, 99, 16⟩ }) = some (0, 0x052) := by
  decide

/-- T-KEY-1, as the first command after a fetch word is placed. -/
theorem test_rdsk_modulo :
    seen resStatus (step ((ready 0 0).withFetchWord 32 0x00100006)) = some (11141110, 0x002) := by decide
/-- T-KEY-3, T-KEY-4. -/
theorem test_rdsk_index :
    seen resStatus (exec (.rdsk 19) (ready 0 0)) = some (0, 0x022) ∧
    seen resStatus (exec (.rdsk 65535) (ready 0 0)) = some (0, 0x022) := by decide
/-- T-KEY-5. -/
theorem test_wrsk_add :
    seen (·.sk) (exec (.wrsk 17) { State.reset with arg := rowOf 10 0 }) = some { SecretKey.reset with add := 10 } := by decide
/-- T-KEY-7. -/
theorem test_wrsk_index :
    seen (fun t => (t.sk, t.status.toWord)) (exec (.wrsk 19) (ready 5 0)) = some (keyK1, 0x022) := by decide
/-- T-KEY-8, T-KEY-9. -/
theorem test_rdpk_row_words :
    seen resStatus (exec (.rdpk 16) (ready 0 0)) = some (4, 0x002) ∧
    seen resStatus (exec (.rdpk 33) (ready 0 0)) = some (11141103, 0x002) := by decide +kernel
/-- T-KEY-10, T-KEY-11. -/
theorem test_rdpk_last_word :
    seen resStatus (exec (.rdpk 2892) (ready 0 0)) = some (16, 0x002) ∧
    seen resStatus (exec (.rdpk 2893) (ready 0 0)) = some (0, 0x022) := by decide +kernel
/-- T-KEY-12, T-KEY-13. -/
theorem test_wrpk_modulo :
    seen (fun t => t.pk.word? 2890) (exec (.wrpk 2890) { State.reset with arg := rowOf 11141110 0 }) =
      some (some 11141110) ∧
    seen (·.status.toWord) (exec (.wrpk 2893) (ready 7 0)) = some 0x022 := by decide +kernel
/-- T-KEY-14. -/
theorem test_wrpk_first_word :
    seen (fun t => t.pk.word? 0) (exec (.wrpk 0) { State.reset with arg := rowOf (-2147483648) 0 }) =
      some (some 0x80000000) := by decide +kernel

/-! ## The register window -/

/-- T-NOP-4, T-NOP-5: a CMD or ARG write while BUSY = 1 is lost, and STATUS reads 0x101. -/
theorem test_overrun :
    (memRead 0x004 (memWrite 0x000 0x00000001 (running 2 0 0))).1 = 0x101 ∧
    (memWrite 0x000 0x00000001 (running 2 0 0)).cur = 2 ∧
    (memRead 0x004 (memWrite 0x040 7 (running 2 0 0))).1 = 0x101 ∧ (memWrite 0x040 7 (running 2 0 0)).arg = rowOf 0 0 := by
  decide
/-- T-NOP-7, T-NOP-8. -/
theorem test_ignored_accesses :
    (memRead 0x008 (ready 3 4)).1 = 0 ∧ memWrite 0x008 5 State.reset = State.reset ∧
    memWrite 0x0C0 5 State.reset = State.reset := by decide +kernel
/-- T-NOP-9. -/
theorem test_narrow_access : admitted 0x000 .bits16 = false ∧ admitted 0x002 .bits32 = false ∧
    admitted 0x004 .bits32 = true := by decide
/-- 20_memory.md R211, on the word of `ARG 0, 11141110` in program P2. -/
theorem test_little_endian : bytesOfWord 0x00A9FFF6 = [0xF6, 0xFF, 0xA9, 0x00] := by decide

/-- 30_encoding.md R311, R320, R322: `READ RES 0` is signed.  DECBUF on a block that is still busy with RDSK 0 of a -1 loses
its ARG and CMD writes, WAIT ends with the RDSK, and the character read is -1.  That the RDSK completes at WAIT and no earlier
is the model's choice (log entry 14). -/
theorem test_decbuf_reads_signed :
    (decBuf (List.replicate 68 0)
      { running 0x00000006 0 0 with sk := { keyK1 with key := keyK1.key.set 0 0xFFFFFFFF } }).1.toOption = some [-1] := by
  decide +kernel
/-- R320: EXEC of an illegal word fails with `st[7:4]`, 1. -/
theorem test_exec_fails_with_code : (hostExec 0x00000100 (ready 0 0)).1 = .error (.command 1) := rfl

/-! ## Every statement with hypotheses has a case that meets them -/

/-- DecodeOfEncodeIsTheCommand, StepRunsTheDecodedCommand (second clause): the ends of IDX's range. -/
theorem test_witness_well_formed : (Instr.rdpk 65535).wellFormed = true ∧ (Instr.wrsk 0).wellFormed = true ∧
    Instr.nop.wellFormed = true := by decide

/-- LegalWordIsTheEncodingOfItsCommand. -/
theorem test_witness_legal_word : decode 0xFFFF0009 = .command (.wrpk 65535) := by decide

/-- IllegalWordsRaiseErrIllegal: a state for each reason. -/
theorem test_witness_illegal_words :
    decode (running 0x0000000A 0 0).cur = .illegal .opcodeUnassigned ∧
    decode (running 0x00000100 0 0).cur = .illegal .reservedNonzero ∧
    decode (running 0x00010005 0 0).cur = .illegal .indexNonzero := by decide

/-- StatusWordHasTheFieldsOfItsTable: reserved bits at both ends of 31:9, with every other field set. -/
theorem test_witness_status_reserved :
    (Status.toWord ⟨true, true, .scalar, true⟩).getLsbD 9 = false ∧
    (Status.toWord ⟨true, true, .scalar, true⟩).getLsbD 31 = false := by decide

/-- ResetStateHoldsTheListedValues: the last index of either key. -/
theorem test_witness_reset_words : State.reset.sk.word? 18 = some 0 ∧ State.reset.pk.word? 2892 = some 0 := by
  decide +kernel

/-- ResetInputHoldsAndClearsTheBlock: a block held in reset, with nothing pending and with the release pending. -/
theorem test_witness_held : (held []).rst = true ∧ (held []).pending = [] ∧ (held [.deassertReset]).rst = true ∧
    (held [.deassertReset]).pending = .deassertReset :: [] := ⟨rfl, rfl, rfl, rfl⟩

/-- NarrowOrMisalignedAccessGetsBusError, with RST not asserted: another width at either end of the window, and a misaligned offset. -/
theorem test_witness_bus_error :
    (0x000 < 0x1000 ∧ (AccessWidth.bits8 ≠ .bits32 ∨ 0x000 % 4 ≠ 0)) ∧
    (0xFF8 < 0x1000 ∧ (AccessWidth.bits64 ≠ .bits32 ∨ 0xFF8 % 4 ≠ 0)) ∧
    (0xFFF < 0x1000 ∧ (AccessWidth.bits32 ≠ .bits32 ∨ 0xFFF % 4 ≠ 0)) ∧ (ready 0 0).rst = false := by decide

/-- ReservedOffsetsReadZeroIgnoreWrites: both ends of each reserved range. -/
theorem test_witness_reserved_offsets :
    ∀ off ∈ [0x008, 0x03C, 0x084, 0x0BC, 0x104, 0xFFC], off % 4 = 0 ∧
      ((0x008 ≤ off ∧ off < 0x040) ∨ (0x084 ≤ off ∧ off < 0x0C0) ∨ (0x104 ≤ off ∧ off < 0x1000)) := by decide

/-- Ready: ArgWordsStoreOnlyWhileIdle, StatusAndResultReadsAnswerTheirRegisters, CommandWriteIssuesOrOverruns,
StoredKeysLoadBackUnchanged, QueuedExecReachesTheDriversState; 0 and 16 are the ends of a word index. -/
theorem test_witness_ready : Ready (ready 0 0) ∧ 0 < 17 ∧ 16 < 17 := ⟨⟨rfl, rfl⟩, by decide, by decide⟩

/-- Running: the same statements' other clauses, EveryIssuedCommandEnds (whatever the latency), and
NopCompletesAndAloneClearsOverrun's lost NOP. -/
theorem test_witness_running : Running (running 2 0 0) ∧ Running { running 2 0 0 with latency := 3 } :=
  ⟨⟨rfl, rfl⟩, rfl, rfl⟩

/-- ArgWordsStoreOnlyWhileIdle (last clause), HostAccessDuringCommandChangesOnlyOverrun: a store to ARG[0] that is lost,
and a poll that leaves OVR set. -/
theorem test_witness_access_during_command :
    (Running (running 2 0 0) ∧ Running (hostMove (HostStmt.event (.arg 0 7)) [] (running 2 0 0)) ∧
      HostStmt.event (.arg 0 7) ≠ .assertReset) ∧
    (Running { running 2 0 0 with status := ⟨true, false, .noError, true⟩ } ∧ HostEvent.wait ≠ .assertReset) := by
  refine ⟨⟨⟨rfl, rfl⟩, ?_, by simp [HostStmt.event]⟩, ⟨rfl, rfl⟩, by simp⟩
  simp [HostStmt.event, hostMove, busWrite, argOffset, windowOffset_base, admitted]
  constructor <;> decide

/-- AccessOutsideTheWindowIsNotTheBlocks: the first address above the window.  (Below it there is one unless BASE is 0, and
BASE is open.) -/
theorem test_witness_outside_window :
    Config.base + 4096 < Config.base ∨ Config.base + 4096 ≤ Config.base + 4096 := .inr le_rfl

/-- ModulusIsTheCanonicalResidue, ShiftAndReduceAgainIsModulus: the least and the greatest word modulus. -/
theorem test_witness_modulus : (0 : Int) < 1 ∧ (0 : Int) < 2147483647 ∧ (2147483647 : Int) < 2147483648 := by decide

/-- WrappingOnceEqualsWrappingEachTime: sums and products that wrap. -/
theorem test_witness_permutation : [2, 2147483647].Perm [(2147483647 : Int), 2] := List.Perm.swap _ _ _

/-- RoundHalfUpIsNearestTiesUp: the ends of the value's range. -/
theorem test_witness_rounding : ((0 : Int) ≤ 0 ∧ (0 : Int) < 2147483648 ∧ (0 : Int) < 1) ∧
    ((0 : Int) ≤ 2147483647 ∧ (2147483647 : Int) < 2147483648 ∧ (0 : Int) < 2147483647) := by decide

/-- NoiseTakesExactlyTheValuesOfItsRange: fuzz = 1 and fuzz = 0, the fuzz of K1 and of T-PKG-2's key. -/
theorem test_witness_fuzz : (1 : Int) ≤ Int.tdiv (s32 keyK1.add) 10 ∧ Int.tdiv (s32 keyK0.add) 10 = 0 ∧
    KeyOk keyK1.modulo keyK1.add keyK1.dim := by decide

/-- NopCompletesAndAloneClearsOverrun: an illegal NOP, a completion of another command, the STATUS of the example. -/
theorem test_witness_nop :
    ((running 0x00010000 0 0).cur.toNat % 256 = 0 ∧ (running 0x00010000 0 0).cur ≠ 0) ∧
    (∃ t, Instr.skgen ≠ .nop ∧ exec .skgen (ready 0 0) = .next t) ∧
    (Ready { ready 0 0 with status := ⟨false, true, .illegal, true⟩ } ∧
      (Status.toWord ⟨false, true, .illegal, true⟩) = 0x00000112) :=
  ⟨by decide, ⟨_, by decide, rfl⟩, ⟨rfl, rfl⟩, by decide⟩

/-- ModredReducesArgZeroModuloArgOne: a clause each; the moduli 0, -2147483648, 1 and 2147483647. -/
theorem test_witness_modred :
    ((running 0xFFFF0001 0 0).cur.toNat % 256 = 1 ∧ (running 0xFFFF0001 0 0).cur ≠ 1) ∧
    s32 (ready 5 0).arg[1] ≤ 0 ∧ s32 ((ready 5 0).arg.set 1 0x80000000)[1] ≤ 0 ∧
    0 < s32 ((ready 5 0).arg.set 1 1)[1] ∧ 0 < s32 ((ready 5 0).arg.set 1 0x7FFFFFFF)[1] ∧
    ((ready (-17) 0).arg.set 1 5)[0] = -17 ∧ ((ready (-17) 0).arg.set 1 5)[1] = 5 := by decide

/-- EveryKeyOfTheShapeCanBeDrawn, GeneratedKeyNeverWrapsInPkgen and the round trip: K1, the key with fuzz = 0, and the ends
of the shape (T-SKG-2, T-SKG-3). -/
theorem test_witness_shape : SkShape keyK1 ∧ SkShape keyK0 ∧
    SkShape { key := Vector.replicate 16 (-4096), modulo := 11120640, add := 9, dim := 16 } ∧
    SkShape { key := Vector.replicate 16 4095, modulo := 111206399, add := 99, dim := 16 } := by
  unfold SkShape; decide +kernel

/-- PkgenDerivesEveryRow, KeyCheckFailureRaisesErrParam, DecchunkRoundsTheResidue: a state whose keys pass the check, and one
whose keys do not. -/
theorem test_witness_key_check :
    KeyOk (ready 0 0).sk.modulo (ready 0 0).sk.add (ready 0 0).sk.dim ∧
    KeyOk (ready 0 0).pk.modulo (ready 0 0).pk.add (ready 0 0).pk.dim ∧
    ¬ KeyOk State.reset.sk.modulo State.reset.sk.add State.reset.sk.dim ∧
    ¬ KeyOk State.reset.pk.modulo State.reset.pk.add State.reset.pk.dim ∧
    ∃ t, exec .skgen (ready 0 0) = .next t := ⟨by decide, by decide, by decide, by decide, _, rfl⟩

/-- GeneratedKeyNeverWrapsInPkgen: T-PKG-5's coefficients, and the noise of a fuzz of 1 and of 0. -/
theorem test_witness_pkgen_row :
    (∀ c : Fin 16, -4096 ≤ s32 (Vector.replicate 17 (-4096 : Word))[c.castSucc] ∧
      s32 (Vector.replicate 17 (-4096 : Word))[c.castSucc] < 4096) ∧
    NoiseIn (Int.tdiv (s32 keyK1.add) 10) (-1) ∧ NoiseIn (Int.tdiv (s32 keyK0.add) 10) 0 := by
  unfold NoiseIn; decide +kernel

/-- EnccharSumsSampledRowsAndFoldsTheCharacter: the ends of the two ranges of scalar values. -/
theorem test_witness_encchar :
    ∀ v ∈ [0, 0xD7FF, 0xE000, 0x10FFFF], KeyOk (ready v 0).pk.modulo (ready v 0).pk.add (ready v 0).pk.dim ∧
      IsScalar (u32 (ready v 0).arg[0]) := by decide

/-- AnySampledRowsCanBeDrawn: two rows and four, the first row and the last of the sampled ones. -/
theorem test_witness_sampled : Sampled [0, 159] ∧ Sampled [1, 1, 1, 1] ∧
    KeyOk (ready 65 0).pk.modulo (ready 65 0).pk.add (ready 65 0).pk.dim ∧ IsScalar (u32 (ready 65 0).arg[0]) := by
  unfold Sampled; decide

/-- A row of a public key: its coefficients are in range, the noise is one of the fuzz, and word 16 is R460's. -/
def rowDerived (sk : SecretKey) (row : Row) (e : Int) : Prop :=
  (∀ c : Fin 16, -4096 ≤ s32 row[c.castSucc] ∧ s32 row[c.castSucc] < 4096) ∧ NoiseIn (Int.tdiv (s32 sk.add) 10) e ∧
    s32 row[16] = modulus (s32 (wrap32 (s32 (dot16 sk.key row) + e))) (s32 sk.modulo)

theorem test_P1_rows (r : Fin 170) :
    keyP1.row r = if r = 0 then rowOf 5 4 else if r = 1 then rowOf (-7) 11141103 else zeroRow := by
  revert r; decide +kernel

theorem test_P0_rows (r : Fin 170) : keyP0.row r = if r = 0 then rowOf 3 3 else zeroRow := by
  revert r; decide +kernel

theorem test_witness_P1_derived : DerivedWith keyK1 keyP1 noiseP1 := by
  have h₀ : rowDerived keyK1 (rowOf 5 4) (-1) := by unfold rowDerived NoiseIn; decide +kernel
  have h₁ : rowDerived keyK1 (rowOf (-7) 11141103) 0 := by unfold rowDerived NoiseIn; decide +kernel
  have h₂ : rowDerived keyK1 zeroRow 0 := by unfold rowDerived NoiseIn; decide +kernel
  refine ⟨⟨rfl, rfl, rfl⟩, fun r => ?_⟩
  rw [test_P1_rows, noiseP1]
  split_ifs <;> assumption

theorem test_witness_P0_derived : DerivedWith keyK0 keyP0 (fun _ => 0) := by
  have h₀ : rowDerived keyK0 (rowOf 3 3) 0 := by unfold rowDerived NoiseIn; decide +kernel
  have h₁ : rowDerived keyK0 zeroRow 0 := by unfold rowDerived NoiseIn; decide +kernel
  refine ⟨⟨rfl, rfl, rfl⟩, fun r => ?_⟩
  rw [test_P0_rows]
  split_ifs <;> assumption

/-- PkgenDerivesEveryRow (the draws are free): a state with K1, and the key P1 with its noises. -/
theorem test_witness_pkgen_draws :
    KeyOk (ready 0 0).sk.modulo (ready 0 0).sk.add (ready 0 0).sk.dim ∧ DerivedWith (ready 0 0).sk keyP1 noiseP1 :=
  ⟨by decide, test_witness_P1_derived⟩

/-- GeneratedKeysNeverWrapInEncchar, GeneratedChunksNeverWrapInDecchunk, ChunkCarriesTheCharacterUnderTheNoise and
ChunkDecryptsToItsCharacter (a positive fuzz, and a value in [0, q)). -/
theorem test_witness_round_trip :
    KeyPair keyK1 keyP1 ∧ SkShape keyK1 ∧ DerivedWith keyK1 keyP1 noiseP1 ∧ Sampled [0, 1] ∧ IsScalar 65 ∧
    1 ≤ Int.tdiv (s32 keyK1.add) 10 ∧ 0 ≤ 65 * s32 keyK1.add + noiseSum noiseP1 [0, 1] ∧
    65 * s32 keyK1.add + noiseSum noiseP1 [0, 1] < s32 keyK1.modulo :=
  ⟨⟨test_witness_shape.1, _, test_witness_P1_derived⟩, test_witness_shape.1, test_witness_P1_derived,
    by unfold Sampled; decide, by decide, by decide, by decide, by decide⟩

/-- ChunkDecryptsToItsCharacter and RoundTripFailsOnlyAtTheTwoEnds with fuzz = 0. -/
theorem test_witness_no_noise :
    SkShape keyK0 ∧ DerivedWith keyK0 keyP0 (fun _ => 0) ∧ Sampled [0, 159] ∧ IsScalar 0 ∧
    Int.tdiv (s32 keyK0.add) 10 = 0 :=
  ⟨test_witness_shape.2.1, test_witness_P0_derived, by unfold Sampled; decide, by decide, by decide⟩

/-- RoundTripFailsOnlyAtTheTwoEnds with K1 and P1: U+0000 under E = -1 (T-DEC-7), U+10FFFF under E = 0 (T-DEC-8), and
U+10FFFF under E = -1, which is neither (T-DEC-10). -/
theorem test_witness_round_trip_ends :
    (IsScalar 0 ∧ Sampled [0, 1] ∧ noiseSum noiseP1 [0, 1] < 0) ∧
    (IsScalar 0x10FFFF ∧ Sampled [1, 1] ∧ s32 keyK1.modulo - 1114111 * s32 keyK1.add ≤ noiseSum noiseP1 [1, 1]) ∧
    (¬ ((0x10FFFF : Int) = 0 ∧ noiseSum noiseP1 [0, 1] < 0) ∧
      ¬ ((0x10FFFF : Int) = 0x10FFFF ∧ s32 keyK1.modulo - 1114111 * s32 keyK1.add ≤ noiseSum noiseP1 [0, 1])) := by
  unfold Sampled; decide

/-- EncryptedCharacterDecryptsToItself: the least and the greatest character it speaks of. -/
theorem test_witness_character :
    ∀ v ∈ [1, 0x10FFFE], KeyPair (ready v 0).sk (ready v 0).pk ∧ IsScalar (u32 (ready v 0).arg[0]) ∧
      (ready v 0).arg[0] ≠ 0 ∧ (ready v 0).arg[0] ≠ 0x10FFFF := by
  have h : KeyPair keyK1 keyP1 := test_witness_round_trip.1
  intro v hv
  exact ⟨h, by revert v; decide⟩

/-- EncryptedStringDecryptsToItself. -/
theorem test_witness_string : Ready (ready 0 0) ∧ KeyPair (ready 0 0).sk (ready 0 0).pk ∧
    ∀ v ∈ [(1 : Int), 65, 0xD7FF, 0xE000, 0x10FFFE], IsScalar v ∧ v ≠ 0 ∧ v ≠ 0x10FFFF :=
  ⟨⟨rfl, rfl⟩, test_witness_round_trip.1, by decide⟩

/-- DecchunkRoundsTheResidue: chunks with a scalar value and without one (T-DEC-14, T-DEC-13); 55295 is U+D7FF. -/
theorem test_witness_decchunk :
    decScalar keyK1 (ready 0 552950).arg = 55295 ∧ IsScalar 55295 ∧
    decScalar keyK1 (ready 0 552960).arg = 55296 ∧ ¬ IsScalar 55296 := by decide

/-- RdskReadsOneSecretWord, WrskWritesOneSecretWord, RdpkReadsOnePublicWord, WrpkWritesOnePublicWord: the ends of each range
of the index, and the row and column that give the last row word. -/
theorem test_witness_key_indices :
    (0 < 16 ∧ 15 < 16 ∧ 18 ≤ 18 ∧ 18 < 19 ∧ 18 < 65535) ∧ (2892 ≤ 2892 ∧ 2892 < 2893 ∧ 2892 < 65535) ∧
    17 * (169 : Fin 170).val + (16 : Fin 17).val = 2889 ∧ (17 : Nat) ≠ 18 := by decide

/-- ErrorCompletionWritesOnlyStatus: the last word of the SK file and one more. -/
theorem test_witness_error_completion :
    ∃ t, completeCommand (running 0x00130006 0 0) = .next t ∧ t.status.err ≠ .noError := ⟨_, rfl, by decide⟩

/-- ErrorsAreReportedInPriorityOrder: a state for each clause (T-ENC-14, T-KEY-3, T-KEY-7, T-KEY-11, T-KEY-13, T-MOD-14's
modulus, T-PKG-6, T-ENCC-13, T-ENCC-9, T-DEC-21, T-DEC-13). -/
theorem test_witness_error_order :
    decode (running 0x00120106 0 0).cur = .illegal .reservedNonzero ∧
    (18 < 19 ∧ decode (running 0x00130006 0 0).cur = .command (.rdsk 19) ∧
      decode (running 0x00130007 0 0).cur = .command (.wrsk 19)) ∧
    (2892 < 2893 ∧ decode (running 0x0B4D0008 0 0).cur = .command (.rdpk 2893) ∧
      decode (running 0x0B4D0009 0 0).cur = .command (.wrpk 2893)) ∧
    (decode (running 1 5 0).cur = .command .modred ∧ s32 (running 1 5 0).arg[1] ≤ 0) ∧
    (decode { State.reset with cur := 3 }.cur = .command .pkgen ∧
      ¬ KeyOk State.reset.sk.modulo State.reset.sk.add State.reset.sk.dim) ∧
    (decode { State.reset with cur := 4, arg := rowOf 0xD800 0 }.cur = .command .encchar ∧
      ¬ KeyOk State.reset.pk.modulo State.reset.pk.add State.reset.pk.dim) ∧
    (decode (running 4 0xD800 0).cur = .command .encchar ∧
      KeyOk (running 4 0xD800 0).pk.modulo (running 4 0xD800 0).pk.add (running 4 0xD800 0).pk.dim ∧
      ¬ IsScalar (u32 (running 4 0xD800 0).arg[0])) ∧
    (decode { State.reset with cur := 5 }.cur = .command .decchunk ∧
      ¬ KeyOk State.reset.sk.modulo State.reset.sk.add State.reset.sk.dim) ∧
    (decode (running 5 0 552960).cur = .command .decchunk ∧
      KeyOk (running 5 0 552960).sk.modulo (running 5 0 552960).sk.add (running 5 0 552960).sk.dim ∧
      ¬ IsScalar (decScalar (running 5 0 552960).sk (running 5 0 552960).arg)) := by decide

/-- ErrorCodeStaysUntilTheNextIssue: an idle step with an error code in STATUS. -/
theorem test_witness_error_kept :
    ¬ Running { ready 0 0 with status := ⟨false, true, .scalar, false⟩ } ∧
    ∃ t, step { ready 0 0 with status := ⟨false, true, .scalar, false⟩ } = .next t :=
  ⟨fun h => absurd h.2 (by decide), _, rfl⟩

/-- CompletionWritesOnlyWhatItsRuleNames: MODRED meets the premises about SK, PK and RES[1..16], NOP those about all. -/
theorem test_witness_frames :
    (Instr.modred ≠ .skgen ∧ ∀ idx, Instr.modred ≠ .wrsk idx) ∧ (Instr.modred ≠ .pkgen ∧ ∀ idx, Instr.modred ≠ .wrpk idx) ∧
    Instr.modred ≠ .encchar ∧ (16 : Fin 17) ≠ 0 ∧
    (Instr.nop ≠ .encchar ∧ Instr.nop ≠ .modred ∧ Instr.nop ≠ .decchunk ∧ (∀ idx, Instr.nop ≠ .rdsk idx) ∧
      ∀ idx, Instr.nop ≠ .rdpk idx) := by simp

/-- KeysAndResultsChangeOnlyByTheirCommands: steps that change SK, PK and RES. -/
theorem test_witness_changes :
    (∃ t, step (running 0x00000007 7 0) = .next t ∧ t.sk ≠ (running 0x00000007 7 0).sk) ∧
    (∃ t, step (running 0x00000009 7 0) = .next t ∧ t.pk ≠ (running 0x00000009 7 0).pk) ∧
    (∃ t, step (running 0x00100006 7 0) = .next t ∧ t.res ≠ (running 0x00100006 7 0).res) :=
  ⟨⟨_, rfl, by decide +kernel⟩, ⟨_, rfl, by decide +kernel⟩, ⟨_, rfl, by decide +kernel⟩⟩

/-- OverrunStaysUntilNopOrReset. -/
theorem test_witness_overrun_cleared :
    ∃ t, step { running 0 0 0 with status := ⟨true, false, .noError, true⟩ } = .next t ∧ t.status.ovr = false :=
  ⟨_, rfl, rfl⟩

/-- StepRunsTheDecodedCommand: at the end of the latency, and before it with nothing pending. -/
theorem test_witness_step :
    (Running (running 0x00100006 0 0) ∧ ((running 0x00100006 0 0).latency = 0 ∨ (running 0x00100006 0 0).pending = []) ∧
      decode (running 0x00100006 0 0).cur = .command (.rdsk 16)) ∧
    (Running { running 1 0 0 with latency := 5 } ∧
      ({ running 1 0 0 with latency := 5 }.latency = 0 ∨ { running 1 0 0 with latency := 5 }.pending = []) ∧
      decode { running 1 0 0 with latency := 5 }.cur = .command .modred) :=
  ⟨⟨⟨rfl, rfl⟩, .inl rfl, by decide⟩, ⟨rfl, rfl⟩, .inr rfl, by decide⟩

/-- EveryStepKeepsTheInvariant: a step from a state with a command in progress, and one from a block held in reset. -/
theorem test_witness_invariant :
    (StateInv (running 0 0 0) ∧ ∃ t, step (running 0 0 0) = .next t) ∧
    (StateInv (held [.deassertReset]) ∧ ∃ t, step (held [.deassertReset]) = .next t) :=
  ⟨⟨⟨fun _ => ⟨rfl, rfl⟩, fun h => absurd h (by decide)⟩, _, rfl⟩,
    ⟨fun h => absurd h (by decide), fun _ => ⟨rfl, rfl, rfl, rfl, rfl, rfl⟩⟩, _, rfl⟩

/-- ItemResultsDependOnlyOnTheirItem: pairs of states that differ in RES and in SK (ENCCHAR) or PK (DECCHUNK), with a success
and with an error (T-ENCC-1, T-ENCC-9, T-DEC-3, T-DEC-13). -/
theorem test_witness_items :
    (∀ v ∈ [65, 0xD800], ∃ s' t', (ready v 0).arg[0] = { ready v 9 with sk := keyK0, res := rowOf 1 2 }.arg[0] ∧
      (ready v 0).pk = { ready v 9 with sk := keyK0, res := rowOf 1 2 }.pk ∧
      (ready v 0).fresh = { ready v 9 with sk := keyK0, res := rowOf 1 2 }.fresh ∧
      execEnccharFrom sourceE (ready v 0) = .next s' ∧
      execEnccharFrom sourceE { ready v 9 with sk := keyK0, res := rowOf 1 2 } = .next t' ∧
      (s'.status.err = .noError ↔ v = 65)) ∧
    (∀ y ∈ [645, 552960], ∃ s' t', (ready 0 y).arg = { ready 0 y with pk := keyP0, res := rowOf 1 2 }.arg ∧
      (ready 0 y).sk = { ready 0 y with pk := keyP0, res := rowOf 1 2 }.sk ∧ exec .decchunk (ready 0 y) = .next s' ∧
      exec .decchunk { ready 0 y with pk := keyP0, res := rowOf 1 2 } = .next t' ∧
      (s'.status.err = .noError ↔ y = 645)) := by
  simp only [List.forall_mem_cons, List.not_mem_nil, false_imp_iff, implies_true, and_true]
  exact
    ⟨⟨⟨_, _, rfl, rfl, rfl, execEnccharFrom_ok _ (by decide) (by decide), execEnccharFrom_ok _ (by decide) (by decide),
        by decide⟩,
      _, _, rfl, rfl, rfl, execEnccharFrom_badChar _ (by decide) (by decide),
        execEnccharFrom_badChar _ (by decide) (by decide), by decide⟩,
     ⟨_, _, trivial, trivial, execDecchunk_ok (by decide) (by decide), execDecchunk_ok (by decide) (by decide), by decide⟩,
      _, _, trivial, trivial, execDecchunk_scalar (by decide) (by decide), execDecchunk_scalar (by decide) (by decide), by decide⟩

/-- StoredKeysLoadBackUnchanged: a block with keys to store, and one right after reset to load them into. -/
theorem test_witness_load : Ready (ready 0 0) ∧ Ready State.reset ∧ State.reset.sk ≠ (ready 0 0).sk := by
  refine ⟨⟨rfl, rfl⟩, ⟨rfl, rfl⟩, by decide⟩

/-- LittleEndianBytesReadBackAsWords: the last byte of the last of two words. -/
theorem test_witness_byte_index : 1 < [(1 : Word), 0x00A9FFF6].length ∧ 3 < 4 ∧ 0 < [(1 : Word), 0x00A9FFF6].length := by
  decide

/-- QueuedExecReachesTheDriversState: a command word that completes without an error, and one with. -/
theorem test_witness_exec_codes :
    (hostExec 0 (ready 0 0)).2.status.err = .noError ∧ (hostExec 0x00000100 (ready 0 0)).2.status.err ≠ .noError :=
  ⟨rfl, fun h => nomatch (show ErrCode.illegal = .noError from h)⟩

/-- WrongLengthBuffersIssueNothing (last clause): T-DEC-3's chunk, which decrypts to 65, then T-DEC-13's, whose DECCHUNK fails
with ERR_SCALAR, before one more chunk. -/
theorem test_witness_failing_chunk :
    Ready (ready 0 0) ∧ (List.replicate 17 (0 : Word)).length % 17 = 0 ∧
    ∃ t u, decBuf (bytesOfWords (rowOf 0 645).toList) (ready 0 0) = (.ok [65], t) ∧
      hostExec (encode .decchunk) { t with arg := rowOf 0 552960 } = (.error (.command 5), u) := by
  have hm : (decBuf (bytesOfWords (rowOf 0 645).toList) (ready 0 0)).1 = .ok [65] := by decide +kernel
  have he : (hostExec (encode .decchunk)
      { (decBuf (bytesOfWords (rowOf 0 645).toList) (ready 0 0)).2 with arg := rowOf 0 552960 }).1 =
      .error (.command 5) := by decide +kernel
  exact ⟨⟨rfl, rfl⟩, by decide, _, _, Prod.ext hm rfl, Prod.ext he rfl⟩

/-- WrongLengthBuffersIssueNothing: one byte short of a chunk and of either key. -/
theorem test_witness_lengths :
    (List.replicate 67 (0 : Byte)).length % 68 ≠ 0 ∧ (List.replicate 75 (0 : Byte)).length ≠ 76 ∧
    (List.replicate 11571 (0 : Byte)).length ≠ 11572 := by
  simp only [List.length_replicate]; decide

end Sys2Proof.Tests
end

section
/-! Proofs of the statements about the block's state (10_state.md). -/

/-! ## Command words (R305, R310) -/

namespace Sys2Proof

/-- The three fields of the command word, for every command. -/
theorem encode_fields (i : Instr) : Laws.EncodedFields.Statement i := by
  cases i with
  | nop => exact Laws.EncodedFields.nop
  | modred => exact Laws.EncodedFields.modred
  | skgen => exact Laws.EncodedFields.skgen
  | pkgen => exact Laws.EncodedFields.pkgen
  | encchar => exact Laws.EncodedFields.encchar
  | decchunk => exact Laws.EncodedFields.decchunk
  | rdsk idx => exact Laws.EncodedFields.rdsk idx
  | wrsk idx => exact Laws.EncodedFields.wrsk idx
  | rdpk idx => exact Laws.EncodedFields.rdpk idx
  | wrpk idx => exact Laws.EncodedFields.wrpk idx

/-- A well-formed command is what its word decodes to. -/
theorem decode_encode {i : Instr} (h : i.wellFormed = true) : decode (encode i) = .command i := by
  obtain ⟨hop, hrsv, hidx⟩ := encode_fields i h
  rw [decode_of_rsv hrsv, hop, hidx]
  cases i <;> rfl

/-- A 32-bit word placed as a number is the word. -/
theorem tableWord_toNat (w : Word) : tableWord 32 w.toNat = w := by
  rw [tableWord, Nat.mod_eq_of_lt w.isLt, BitVec.ofNat_toNat, BitVec.setWidth_eq]

end Sys2Proof

namespace Sys2Proof.Machine

open Sys2Proof.Safety

/-! ## Steps keep the invariant (R109, R801) -/

/-- A STATUS with BUSY = 0 is legal, whatever it holds besides. -/
theorem statusLegal_of_idle {t : Status} (h : t.busy = false) : StatusLegal t := fun hb =>
  absurd (h.symm.trans hb) (by decide)

/-- A state with RST not asserted meets the invariant when its STATUS is legal. -/
theorem stateInv_of_not_rst {s : State} (hr : s.rst = false) (h : StatusLegal s.status) : StateInv s :=
  ⟨h, fun hr' => absurd (hr.symm.trans hr') (by decide)⟩

theorem stateInv_resetRegisters (b : Bool) (s : State) : StateInv (resetRegisters b s) :=
  ⟨statusLegal_of_idle rfl, fun _ => ⟨rfl, rfl, rfl, rfl, rfl, rfl⟩⟩

/-- Every event of the outside world keeps the invariant. -/
theorem hostMove_keeps_stateInv (e : HostEvent) (rest : List HostEvent) {s : State} (h : StateInv s) :
    StateInv (hostMove e rest s) := by
  rcases hostMove_cases e rest s with
    ⟨-, hm⟩ | ⟨-, -, hm⟩ | ⟨f, p, rs, hm⟩ | ⟨hr, -, rs, hm⟩ | ⟨hr, -, w, rs, hm⟩ | ⟨hr, hb, i, w, rs, hm⟩ <;> rw [hm]
  · exact stateInv_resetRegisters true _
  · exact stateInv_resetRegisters false _
  · exact h
  · exact stateInv_of_not_rst hr h.1
  · exact stateInv_of_not_rst hr fun _ => ⟨rfl, rfl⟩
  · exact stateInv_of_not_rst hr (statusLegal_of_idle hb)

/-- A completion leaves the engine IDLE, so with RST not asserted it establishes the invariant. -/
theorem completeCommand_stateInv {s t : State} (hr : s.rst = false) (h : completeCommand s = .next t) : StateInv t := by
  obtain ⟨t', ht', hb, -, hrt, -⟩ := completeCommand_next s
  obtain rfl : t = t' := Host.Outcome.next.inj (h.symm.trans ht')
  exact stateInv_of_not_rst (hrt.trans hr) (statusLegal_of_idle hb)

/-- Settles O47: a step is a completion, an event of the outside world, or nothing, and each keeps the invariant. -/
theorem everyStepKeepsTheInvariant : Obligations.EveryStepKeepsTheInvariant := by
  intro s t hs ht
  rcases step_cases s with
    ⟨hr, -, -, h⟩ | ⟨-, -, n, e, rest, -, -, h⟩ | ⟨-, e, rest, -, h⟩ | ⟨-, -, h⟩ <;> rw [h] at ht
  · exact completeCommand_stateInv hr ht
  · obtain rfl := Host.Outcome.next.inj ht
    exact hostMove_keeps_stateInv e rest (s := { s with latency := n }) hs
  · obtain rfl := Host.Outcome.next.inj ht
    exact hostMove_keeps_stateInv e rest hs
  · obtain rfl := Host.Outcome.next.inj ht
    exact hs

/-- Settles O48: the reset state holds no command and its RST is not asserted. -/
theorem resetMeetsTheInvariant : Obligations.ResetMeetsTheInvariant :=
  stateInv_of_not_rst rfl (statusLegal_of_idle rfl)

/-! ## Host events while a command runs (R110, R214) -/

/-- Settles O15: of the things an event can do, only an answer and the loss of a write remain while a command runs. -/
theorem hostAccessDuringCommandChangesOnlyOverrun : Obligations.HostAccessDuringCommandChangesOnlyOverrun := by
  rintro s e rest ⟨hrst, hbusy⟩ he
  rcases hostMove_cases e rest s with
    ⟨ha, -⟩ | ⟨-, hr, -⟩ | ⟨f, p, rs, h⟩ | ⟨-, -, rs, h⟩ | ⟨-, hb, -⟩ | ⟨-, hb, -⟩
  · exact absurd ha he
  · exact absurd (hrst.symm.trans hr) (by decide)
  · exact ⟨s.status.ovr, f, p, rs, id, h⟩
  · exact ⟨true, s.fresh, rest, rs, fun _ => rfl, h⟩
  · exact absurd (hbusy.symm.trans hb) (by decide)
  · exact absurd (hbusy.symm.trans hb) (by decide)

/-! ## What a completion writes (R114) -/

/-- R114's write table: a command takes its error completion, or commits writes to the one file its row names. -/
theorem exec_writes (i : Instr) (s : State) :
    (∃ c, exec i s = raiseCmdError c s) ∨
    (i = .nop ∧ exec i s = commit { s with status := s.status.clearOverrun }) ∨
    ((i = .skgen ∨ ∃ idx, i = .wrsk idx) ∧ ∃ k f, exec i s = commit { s with sk := k, fresh := f }) ∨
    ((i = .pkgen ∨ ∃ idx, i = .wrpk idx) ∧ ∃ k f, exec i s = commit { s with pk := k, fresh := f }) ∨
    (i = .encchar ∧ ∃ chunk f, exec i s = commit { s with res := chunk, fresh := f }) ∨
    ((i = .modred ∨ i = .decchunk ∨ (∃ idx, i = .rdsk idx) ∨ ∃ idx, i = .rdpk idx) ∧
      ∃ w, exec i s = commit { s with res := s.res.set 0 w }) := by
  cases i with
  | nop => exact .inr (.inl ⟨rfl, rfl⟩)
  | modred =>
    by_cases h : s32 s.arg[1] ≤ 0
    · exact .inl ⟨_, execModred_param h⟩
    · exact .inr (.inr (.inr (.inr (.inr ⟨.inl rfl, _, execModred_ok (not_le.1 h)⟩))))
  | skgen => exact .inr (.inr (.inl ⟨.inl rfl, _, _, rfl⟩))
  | pkgen =>
    by_cases h : KeyOk s.sk.modulo s.sk.add s.sk.dim
    · exact .inr (.inr (.inr (.inl ⟨.inl rfl, _, _, execPkgenFrom_ok _ h⟩)))
    · exact .inl ⟨_, execPkgenFrom_param _ h⟩
  | encchar =>
    by_cases h : KeyOk s.pk.modulo s.pk.add s.pk.dim
    · by_cases hv : IsScalar (u32 s.arg[0])
      · exact .inr (.inr (.inr (.inr (.inl ⟨rfl, _, _, execEnccharFrom_ok _ h hv⟩))))
      · exact .inl ⟨_, execEnccharFrom_badChar _ h hv⟩
    · exact .inl ⟨_, execEnccharFrom_param _ h⟩
  | decchunk =>
    by_cases h : KeyOk s.sk.modulo s.sk.add s.sk.dim
    · by_cases hv : IsScalar (decScalar s.sk s.arg)
      · exact .inr (.inr (.inr (.inr (.inr ⟨.inr (.inl rfl), _, execDecchunk_ok h hv⟩))))
      · exact .inl ⟨_, execDecchunk_scalar h hv⟩
    · exact .inl ⟨_, execDecchunk_param h⟩
  | rdsk idx =>
    cases h : s.sk.word? idx with
    | none => exact .inl ⟨_, execRdsk_index h⟩
    | some w => exact .inr (.inr (.inr (.inr (.inr ⟨.inr (.inr (.inl ⟨idx, rfl⟩)), w, execRdsk_ok h⟩))))
  | wrsk idx =>
    cases h : s.sk.setWord? idx s.arg[0] with
    | none => exact .inl ⟨_, execWrsk_index h⟩
    | some k => exact .inr (.inr (.inl ⟨.inr ⟨idx, rfl⟩, k, s.fresh, execWrsk_ok h⟩))
  | rdpk idx =>
    cases h : s.pk.word? idx with
    | none => exact .inl ⟨_, execRdpk_index h⟩
    | some w => exact .inr (.inr (.inr (.inr (.inr ⟨.inr (.inr (.inr ⟨idx, rfl⟩)), w, execRdpk_ok h⟩))))
  | wrpk idx =>
    cases h : s.pk.setWord? idx s.arg[0] with
    | none => exact .inl ⟨_, execWrpk_index h⟩
    | some k => exact .inr (.inr (.inr (.inl ⟨.inr ⟨idx, rfl⟩, k, s.fresh, execWrpk_ok h⟩)))

/-- A write of word 0 leaves the other words of a row. -/
theorem getElem_set_zero_of_ne (v : Row) (w : Word) {c : Fin 17} (h : c ≠ 0) : (v.set 0 w)[c] = v[c] := by
  have hc : (0 : Nat) ≠ c.val := fun h0 => h (Fin.ext h0.symm)
  simp [Vector.getElem_set_ne, hc]

/-- Settles O41: each row of R114's write table leaves what the other rows name. -/
theorem completionWritesOnlyWhatItsRuleNames : Obligations.CompletionWritesOnlyWhatItsRuleNames := by
  intro i s
  rcases exec_writes i s with
    ⟨c, h⟩ | ⟨-, h⟩ | ⟨hi, k, f, h⟩ | ⟨hi, k, f, h⟩ | ⟨hi, chunk, f, h⟩ | ⟨hi, w, h⟩ <;>
    refine ⟨_, h, rfl, rfl, rfl, rfl, rfl, rfl, rfl, rfl, ?_⟩
  · exact ⟨fun _ _ => rfl, fun _ _ => rfl, fun _ _ _ => rfl, fun _ _ _ _ _ => rfl⟩
  · exact ⟨fun _ _ => rfl, fun _ _ => rfl, fun _ _ _ => rfl, fun _ _ _ _ _ => rfl⟩
  · refine ⟨fun hgen hwr => ?_, fun _ _ => rfl, fun _ _ _ => rfl, fun _ _ _ _ _ => rfl⟩
    exact (hi.elim hgen fun ⟨idx, h⟩ => hwr idx h).elim
  · refine ⟨fun _ _ => rfl, fun hgen hwr => ?_, fun _ _ _ => rfl, fun _ _ _ _ _ => rfl⟩
    exact (hi.elim hgen fun ⟨idx, h⟩ => hwr idx h).elim
  · exact ⟨fun _ _ => rfl, fun _ _ => rfl, fun hne => absurd hi hne, fun hne => absurd hi hne⟩
  · refine ⟨fun _ _ => rfl, fun _ _ => rfl, fun _ c hc => getElem_set_zero_of_ne s.res w hc,
      fun _ hmod hdec hrdsk hrdpk => ?_⟩
    rcases hi with hi | hi | ⟨idx, hi⟩ | ⟨idx, hi⟩
    · exact absurd hi hmod
    · exact absurd hi hdec
    · exact absurd hi (hrdsk idx)
    · exact absurd hi (hrdpk idx)

/-! ## Who changes the keys and the results (R102, R106, R801) -/

/-- An event of the outside world is a reset, or leaves SK, PK and RES. -/
theorem hostMove_reset_or_keeps_keys_and_results (e : HostEvent) (rest : List HostEvent) (s : State) :
    (e = .assertReset ∨ (e = .deassertReset ∧ s.rst = true)) ∨
    ((hostMove e rest s).sk = s.sk ∧ (hostMove e rest s).pk = s.pk ∧ (hostMove e rest s).res = s.res) := by
  rcases hostMove_cases e rest s with
    ⟨he, -⟩ | ⟨he, hr, -⟩ | ⟨f, p, rs, h⟩ | ⟨-, -, rs, h⟩ | ⟨-, -, w, rs, h⟩ | ⟨-, -, i, w, rs, h⟩
  · exact .inl (.inl he)
  · exact .inl (.inr ⟨he, hr⟩)
  all_goals exact .inr (by rw [h]; exact ⟨rfl, rfl, rfl⟩)

/-- A command that changes SK is SKGEN or WRSK, and one that changes PK is PKGEN or WRPK. -/
theorem exec_keys_changed {i : Instr} {s t : State} (h : exec i s = .next t) :
    (t.sk ≠ s.sk → i = .skgen ∨ ∃ idx, i = .wrsk idx) ∧ (t.pk ≠ s.pk → i = .pkgen ∨ ∃ idx, i = .wrpk idx) := by
  obtain ⟨t', ht', -, -, -, -, -, -, -, -, hsk, hpk, -⟩ := completionWritesOnlyWhatItsRuleNames i s
  obtain rfl : t = t' := Host.Outcome.next.inj (h.symm.trans ht')
  constructor
  · intro hne
    by_contra! hi
    exact hne (hsk hi.1 hi.2)
  · intro hne
    by_contra! hi
    exact hne (hpk hi.1 hi.2)

/-- Settles O42: a completion writes what its command names, and of the host's events only a reset reaches a key or a
result. -/
theorem keysAndResultsChangeOnlyByTheirCommands : Obligations.KeysAndResultsChangeOnlyByTheirCommands := by
  intro s t ht
  rcases step_cases s with
    ⟨hr, hb, -, h⟩ | ⟨hr, -, n, e, rest, -, hp, h⟩ | ⟨-, e, rest, hp, h⟩ | ⟨-, -, h⟩ <;> rw [h] at ht
  · refine .inr ?_
    unfold completeCommand at ht
    cases hd : decode s.cur with
    | command i =>
      rw [hd] at ht
      obtain ⟨hsk, hpk⟩ := exec_keys_changed ht
      simp only [Decoded.command.injEq]
      exact ⟨fun hne => ⟨⟨hr, hb⟩, hsk hne⟩, fun hne => ⟨⟨hr, hb⟩, hpk hne⟩, fun _ => ⟨⟨hr, hb⟩, i, rfl, ht⟩⟩
    | illegal why =>
      rw [hd] at ht
      obtain rfl := Host.Outcome.next.inj ht
      exact ⟨absurd rfl, absurd rfl, absurd rfl⟩
  · obtain rfl := Host.Outcome.next.inj ht
    rcases hostMove_reset_or_keeps_keys_and_results e rest { s with latency := n } with
      (rfl | ⟨-, hr'⟩) | ⟨hsk, hpk, hres⟩
    · exact .inl ⟨_, rest, hp, .inl rfl, rfl⟩
    · exact absurd (hr.symm.trans hr') (by decide)
    · exact .inr ⟨absurd hsk, absurd hpk, absurd hres⟩
  · obtain rfl := Host.Outcome.next.inj ht
    rcases hostMove_reset_or_keeps_keys_and_results e rest s with he | ⟨hsk, hpk, hres⟩
    · exact .inl ⟨e, rest, hp, he, rfl⟩
    · exact .inr ⟨absurd hsk, absurd hpk, absurd hres⟩
  · obtain rfl := Host.Outcome.next.inj ht
    exact .inr ⟨absurd rfl, absurd rfl, absurd rfl⟩

/-! ## Every value can be drawn (R112) -/

/-- The random source whose draws from number `n` on are made from the raw numbers `raw 0`, `raw 1`, ... -/
def sourceFrom (n : Nat) (raw : Nat → Nat) : Nat → Nat := fun m => raw (m - n)

@[simp] theorem sourceFrom_self (n : Nat) (raw : Nat → Nat) : sourceFrom n raw n = raw 0 := by
  simp [sourceFrom]

@[simp] theorem sourceFrom_add (n : Nat) (raw : Nat → Nat) (k : Nat) : sourceFrom n raw (n + k) = raw k := by
  simp [sourceFrom]

/-- The raw numbers from which SKGEN draws the key `k`: the modulus, then the entries (R450). -/
def secretKeyRaws (k : SecretKey) : Nat → Nat
  | 0 => (s32 k.modulo - Config.modLo).toNat
  | i + 1 => (s32 (k.key.getD i 0) - Config.keyLo).toNat

/-- A key of R451's shape is the key of its modulus and its entries. -/
theorem secretKeyOf_of_shape {k : SecretKey} (h : SkShape k) :
    secretKeyOf (s32 k.modulo) (Vector.ofFn fun i : Fin 16 => s32 k.key[i]) = k := by
  obtain ⟨-, -, hadd, hdim⟩ := h
  obtain ⟨key, modulo, add, dim⟩ := k
  have hkey : (Vector.ofFn fun i : Fin 16 => wrap32 (Vector.ofFn fun i : Fin 16 => s32 key[i])[i]) = key :=
    Vector.ext fun i hi => by simp
  have hadd' : wrap32 (tdiv (s32 modulo) Config.maxChr) = add := by
    rw [tdiv, ← hadd, wrap32_s32]
  have hdim' : wrap32 Config.dim = dim := by rw [Config.dim, ← hdim, wrap32_s32]
  simp only [secretKeyOf, hkey, hadd', hdim', wrap32_s32]

/-- A key of R451's shape is what SKGEN draws from its own raw numbers. -/
theorem freshSecretKey_secretKeyRaws {k : SecretKey} (h : SkShape k) (n : Nat) :
    freshSecretKey (sourceFrom n (secretKeyRaws k)) n = k := by
  have ⟨hkey, ⟨hmod₁, hmod₂⟩, _, _⟩ := h
  have hmod : draw (sourceFrom n (secretKeyRaws k) n) Config.modLo Config.modHi = s32 k.modulo := by
    rw [sourceFrom_self]; exact draw_of_range hmod₁ hmod₂
  have hdraw (i : Fin 16) :
      draw (sourceFrom n (secretKeyRaws k) (n + 1 + i)) Config.keyLo Config.keyHi = s32 k.key[i] := by
    have hget : k.key.getD i 0 = k.key[i] := by simp [Vector.getD, Array.getD]
    rw [Nat.add_assoc, sourceFrom_add, Nat.add_comm 1, secretKeyRaws, hget]
    exact draw_of_range (hkey i).1 (hkey i).2
  simp only [freshSecretKey, hmod, hdraw]
  exact secretKeyOf_of_shape h

/-- Settles O26: the source is the one of the key's own raw numbers. -/
theorem everyKeyOfTheShapeCanBeDrawn : Obligations.EveryKeyOfTheShapeCanBeDrawn := by
  intro k s hk
  refine ⟨sourceFrom s.fresh (secretKeyRaws k), ?_⟩
  rw [execSkgenFrom, freshSecretKey_secretKeyRaws hk]
  rfl

/-- The raw numbers from which ENCCHAR draws the rows `js`: their count, then each index (R500). -/
def sampleRaws (js : List Nat) : Nat → Nat
  | 0 => js.length - 2
  | k + 1 => js.getD k 0

/-- Two to four rows: the count is one that `Draw(2, 5)` gives. -/
theorem drawCount_sampleRaws {js : List Nat} (h₂ : 2 ≤ js.length) (h₄ : js.length ≤ 4) (n : Nat) :
    drawCount (sourceFrom n (sampleRaws js)) n = js.length := by
  have hraw : js.length - 2 = ((js.length : Int) - 2).toNat := by omega
  have hdraw : draw (js.length - 2) Config.repLo Config.repHi = js.length := by
    rw [hraw]; exact draw_of_range (hi := 5) (by omega) (by omega)
  rw [drawCount, sourceFrom_self, sampleRaws, hdraw, Int.toNat_natCast]

/-- A source that gives the indices of `js`, all below 160, as raw numbers makes ENCCHAR sample `js`. -/
theorem drawRows_eq_of_raws {src : Nat → Nat} {js : List Nat} {n : Nat} (hlt : ∀ j ∈ js, j < 160)
    (hsrc : ∀ k, src (n + k) = js.getD k 0) : drawRows src n js.length = js := by
  induction js generalizing n with
  | nil => rfl
  | cons j js ih =>
    obtain ⟨hj, hjs⟩ := List.forall_mem_cons.1 hlt
    have hhead : (draw (src n) 0 Config.sampleRows).toNat = j := by
      have hdraw : draw j 0 Config.sampleRows = j :=
        draw_of_range (x := j) (hi := 160) (Int.natCast_nonneg j) (by omega)
      rw [show src n = j from hsrc 0, hdraw, Int.toNat_natCast]
    have htail : drawRows src (n + 1) js.length = js :=
      ih hjs fun k => by rw [Nat.add_assoc, Nat.add_comm 1, hsrc]; rfl
    rw [List.length_cons, drawRows, hhead, htail]

/-- Settles O31: the source is the one of the rows' own raw numbers. -/
theorem anySampledRowsCanBeDrawn : Obligations.AnySampledRowsCanBeDrawn := by
  rintro js s ⟨⟨h₂, h₄⟩, hlt⟩ hkey hv
  have hrows : drawRows (sourceFrom s.fresh (sampleRaws js)) (s.fresh + 1) js.length = js :=
    drawRows_eq_of_raws hlt fun k => by
      rw [Nat.add_assoc, sourceFrom_add, Nat.add_comm 1, sampleRaws]
  refine ⟨sourceFrom s.fresh (sampleRaws js), ?_⟩
  rw [execEnccharFrom_ok _ hkey hv, drawCount_sampleRaws h₂ h₄, hrows]
  rfl

/-! ## The STATUS word (R109, R701) -/

/-- Words put side by side, as a number. -/
theorem toNat_append_eq_add {m n : Nat} (x : BitVec m) (y : BitVec n) :
    (x ++ y).toNat = x.toNat * 2 ^ n + y.toNat := by
  rw [BitVec.toNat_append, ← Nat.shiftLeft_add_eq_or_of_lt y.isLt, Nat.shiftLeft_eq]

theorem ErrCode.code_lt (c : ErrCode) : c.code < 16 := by
  cases c <;> decide

/-- The STATUS word is the number with BUSY at 1, DONE at 2, ERR at 16 and OVR at 256. -/
theorem Status.toWord_toNat (t : Status) :
    t.toWord.toNat = 256 * t.ovr.toNat + 16 * t.err.code + 2 * t.done.toNat + t.busy.toNat := by
  have hovr := Bool.toNat_lt t.ovr
  have hdone := Bool.toNat_lt t.done
  have hbusy := Bool.toNat_lt t.busy
  have herr := t.err.code_lt
  simp only [toWord, BitVec.truncate_eq_setWidth, BitVec.toNat_setWidth, toNat_append_eq_add, BitVec.toNat_ofBool,
    BitVec.ofNat_eq_ofNat, BitVec.toNat_ofNat]
  omega

/-- Bit `i` of the STATUS word is `b` when the word's quotient by `2 ^ i` has the parity of `b`. -/
theorem Status.toWord_getLsbD_eq {t : Status} {i : Nat} {b : Bool} (h : t.toWord.toNat / 2 ^ i % 2 = b.toNat) :
    t.toWord.getLsbD i = b := by
  rw [BitVec.getLsbD, Nat.testBit_eq_decide_div_mod_eq, h]
  cases b <;> rfl

/-- Settles O5: the bits and the field are read off the number that the STATUS word is. -/
theorem statusWordHasTheFieldsOfItsTable : Obligations.StatusWordHasTheFieldsOfItsTable := by
  intro t
  have hword := t.toWord_toNat
  have hovr := Bool.toNat_lt t.ovr
  have hdone := Bool.toNat_lt t.done
  have hbusy := Bool.toNat_lt t.busy
  have herr := t.err.code_lt
  have hfalse := Bool.toNat_false
  refine ⟨Status.toWord_getLsbD_eq ?_, Status.toWord_getLsbD_eq ?_, Status.toWord_getLsbD_eq ?_,
    Status.toWord_getLsbD_eq ?_, Status.toWord_getLsbD_eq ?_, fun i hi => ?_, ?_⟩
  case refine_6 =>
    have hlt : t.toWord.toNat < 2 ^ i := lt_of_lt_of_le (by omega) (Nat.pow_le_pow_right (by decide) hi)
    exact Nat.testBit_lt_two_pow hlt
  case refine_7 =>
    have hfield : t.toWord.toNat / 16 % 16 = t.err.code := by omega
    rw [hfield]
    cases t.err <;> rfl
  all_goals omega

/-! ## The reset values (R113) -/

theorem SecretKey.reset_word? {idx : Nat} (h : idx ≤ 18) : SecretKey.reset.word? idx = some 0 := by
  unfold word?
  split_ifs
  · simp [reset]
  · rfl
  · rfl
  · rfl
  · omega

theorem PublicKey.reset_word? {idx : Nat} (h : idx ≤ 2892) : PublicKey.reset.word? idx = some 0 := by
  unfold word?
  split_ifs
  · simp [reset, zeroRow]
  · rfl
  · rfl
  · rfl
  · omega

/-- A key whose modulus is 0 fails KEYOK (R407). -/
theorem not_keyOk_zero_modulo (add dim : Word) : ¬ KeyOk 0 add dim := fun h => absurd h.1 (by decide)

/-- Settles O6: the two keys word by word, the rest by evaluation. -/
theorem resetStateHoldsTheListedValues : Obligations.ResetStateHoldsTheListedValues :=
  ⟨by decide, fun _ => SecretKey.reset_word?, fun _ => PublicKey.reset_word?, rfl, rfl, rfl,
    not_keyOk_zero_modulo _ _, not_keyOk_zero_modulo _ _⟩

/-! ## The CMD register (R108) -/

/-- A CMD write while BUSY = 1 is lost and sets OVR. -/
theorem memWrite_cmd_running {s : State} (w : Word) (hr : s.rst = false) (hb : s.status.busy = true) :
    memWrite 0x000 w s = { s with status := s.status.overrun } := by
  simp [memWrite, hr, hb, windowReg_cmd]

theorem memRead_cmd (s : State) : memRead 0x000 s = (0, s) := by
  cases hr : s.rst <;> simp [memRead, hr, windowReg_cmd]

/-- What the host has still to do plays no part in a write of the window. -/
theorem memWrite_withPending (off : Nat) (v : Word) (p : List HostEvent) (s : State) :
    memWrite off v { s with pending := p } = { memWrite off v s with pending := p } := by
  cases hr : s.rst with
  | true => simp [memWrite, hr]
  | false =>
    cases hw : windowReg off with
    | cmd => cases hb : s.status.busy <;> simp [memWrite, issue, hr, hb, hw]
    | arg i => cases hb : s.status.busy <;> simp [memWrite, hr, hb, hw]
    | status | res i | reserved => simp [memWrite, hr, hw]

theorem memWrite_responses (off : Nat) (v : Word) (s : State) : (memWrite off v s).responses = s.responses := by
  rcases memWrite_cases off v s with h | ⟨-, -, h⟩ | ⟨-, -, h⟩ | ⟨-, -, i, h⟩ <;> simp [h]

/-- A 32-bit store at an aligned offset of the window is that register's write, answered as written. -/
theorem hostMove_write_window {off : Nat} (h : off < 0x1000) (ha : off % 4 = 0) (v : Word) (rest : List HostEvent)
    (s : State) :
    hostMove (.write (Config.base + off) .bits32 v) rest s =
      { memWrite off v s with pending := rest, responses := .written :: s.responses } := by
  simp only [hostMove, busWrite, windowOffset_base h, admitted, ha, beq_self_eq_true, if_true, State.respond,
    memWrite_withPending, memWrite_responses]

/-- Settles O13: CMD at offset 0, written with BUSY = 0, written with BUSY = 1, read, and written over the bus. -/
theorem commandWriteIssuesOrOverruns : Obligations.CommandWriteIssuesOrOverruns := by
  refine ⟨fun s w ⟨hr, hb⟩ => ⟨_, _, memWrite_cmd w hr hb⟩, fun s w ⟨hr, hb⟩ => memWrite_cmd_running w hr hb,
    fun s => by rw [memRead_cmd], fun s w rest => hostMove_write_window (by decide) rfl w rest s⟩

/-! ## The step of a command (R110, R305) -/

/-- With a command in progress and no host event before it, the step is its completion. -/
theorem step_eq_completeCommand {s : State} (hs : Running s) (h : s.latency = 0 ∨ s.pending = []) :
    step s = completeCommand s := by
  obtain ⟨hrst, hbusy⟩ := hs
  simp only [step, advance, engineIdle, hrst, hbusy]
  rcases h with h | h <;> rw [h]
  · rfl
  · cases s.latency <;> rfl

theorem completeCommand_of_decode {s : State} {i : Instr} (h : decode s.cur = .command i) :
    completeCommand s = exec i s := by
  rw [completeCommand, h]

theorem step_eq_exec {s : State} {i : Instr} (hs : Running s) (h : s.latency = 0 ∨ s.pending = [])
    (hd : decode s.cur = .command i) : step s = exec i s :=
  (step_eq_completeCommand hs h).trans (completeCommand_of_decode hd)

/-- Settles O44: the placed word is one case of the latched word, since it decodes to its command. -/
theorem stepRunsTheDecodedCommand : Obligations.StepRunsTheDecodedCommand := by
  refine ⟨fun s i => step_eq_exec, fun s i hi => ?_⟩
  have hs : s.withFetchWord 32 (encode i).toNat =
      { s with cur := encode i, status := ⟨true, false, .noError, s.status.ovr⟩, latency := 0, rst := false } := by
    rw [State.withFetchWord, tableWord_toNat]; rfl
  rw [hs]
  exact step_eq_exec ⟨rfl, rfl⟩ (.inl rfl) (decode_encode hi)

end Sys2Proof.Machine
end

section
/-! Proofs of the statements about the register window, the byte layout and the host's operations (20_memory.md). -/

namespace Sys2Proof.Machine

open Sys2Proof.Safety

/-! ## Loads over the bus (R203, R208) -/

/-- What the host has still to do plays no part in a read of the window. -/
theorem memRead_withPending (off : Nat) (p : List HostEvent) (s : State) :
    memRead off { s with pending := p } = ((memRead off s).1, { (memRead off s).2 with pending := p }) := by
  cases hr : s.rst with
  | true => simp [memRead, hr]
  | false =>
    cases hw : windowReg off with
    | res i => cases hb : s.status.busy <;> simp [memRead, hr, hb, hw]
    | cmd | status | arg i | reserved => simp [memRead, hr, hw]

theorem memRead_responses (off : Nat) (s : State) : (memRead off s).2.responses = s.responses := by
  rcases memRead_state off s with h | h <;> rw [h]

/-- A 32-bit load at an aligned offset of the window is that register's read, answered with its word. -/
theorem hostMove_read_window {off : Nat} (h : off < 0x1000) (ha : off % 4 = 0) (rest : List HostEvent) (s : State) :
    hostMove (.read (Config.base + off) .bits32) rest s =
      { (memRead off s).2 with pending := rest, responses := .data (memRead off s).1 :: s.responses } := by
  simp only [hostMove, busRead, windowOffset_base h, admitted, ha, beq_self_eq_true, if_true, State.respond,
    memRead_withPending, memRead_responses]

/-- A load of a register that the read leaves alone is its word as the answer, and nothing else. -/
theorem hostMove_read_of_memRead {off : Nat} {s : State} {w : Word} (h : memRead off s = (w, s)) (ho : off < 0x1000)
    (ha : off % 4 = 0) (rest : List HostEvent) :
    hostMove (.read (Config.base + off) .bits32) rest s =
      { s with pending := rest, responses := .data w :: s.responses } := by
  rw [hostMove_read_window ho ha, h]

/-- A store to a register that ignores it is the answer and nothing else. -/
theorem hostMove_write_of_ignored {off : Nat} {s : State} {v : Word} (h : memWrite off v s = s) (ho : off < 0x1000)
    (ha : off % 4 = 0) (rest : List HostEvent) :
    hostMove (.write (Config.base + off) .bits32 v) rest s =
      { s with pending := rest, responses := .written :: s.responses } := by
  rw [hostMove_write_window ho ha, h]

/-! ## Accesses the window does not take (R203, R204, R212) -/

theorem admitted_eq_false {off : Nat} {width : AccessWidth} (h : width ≠ .bits32 ∨ off % 4 ≠ 0) :
    admitted off width = false := by
  cases width with
  | bits32 => simpa [admitted] using h
  | bits8 | bits16 | bits64 => rfl

/-- Settles O8: the window does not take the access, whose bus error is its only effect. -/
theorem narrowOrMisalignedAccessGetsBusError : Obligations.NarrowOrMisalignedAccessGetsBusError := by
  intro s off width v rest ho h
  have hadm := admitted_eq_false h
  refine ⟨.busError, .busError, ?_, ?_, fun _ => ⟨rfl, rfl⟩⟩
  · simp [hostMove, busRead, windowOffset_base ho, hadm, State.respond]
  · simp [hostMove, busWrite, windowOffset_base ho, hadm, State.respond]

theorem memRead_of_reserved {off : Nat} (h : windowReg off = .reserved) (s : State) : memRead off s = (0, s) := by
  cases hr : s.rst <;> simp [memRead, hr, h]

theorem memWrite_of_reserved {off : Nat} (h : windowReg off = .reserved) (v : Word) (s : State) :
    memWrite off v s = s := by
  simp [memWrite, h]

/-- Settles O9: the three ranges of R202 hold no register. -/
theorem reservedOffsetsReadZeroIgnoreWrites : Obligations.ReservedOffsetsReadZeroIgnoreWrites := by
  intro s off v rest ha h
  have hreg : windowReg off = .reserved := windowReg_reserved (h.imp_right (.imp_right And.left))
  have ho : off < 0x1000 := by omega
  exact ⟨hostMove_read_of_memRead (memRead_of_reserved hreg s) ho ha rest,
    hostMove_write_of_ignored (memWrite_of_reserved hreg v s) ho ha rest⟩

theorem windowOffset_outside {addr : Nat} (h : addr < Config.base ∨ Config.base + 4096 ≤ addr) :
    windowOffset addr = none :=
  if_neg (by omega)

/-- Settles O14: the address has no offset in the window. -/
theorem accessOutsideTheWindowIsNotTheBlocks : Obligations.AccessOutsideTheWindowIsNotTheBlocks := by
  intro s addr width v rest h
  have hoff := windowOffset_outside h
  exact ⟨by rw [hostMove, busRead, hoff], by rw [hostMove, busWrite, hoff]⟩

/-! ## STATUS and RES (R205, R207) -/

theorem memWrite_status (v : Word) (s : State) : memWrite 0x004 v s = s := by
  simp [memWrite, windowReg_status]

theorem memWrite_res {i : Nat} (hi : i < 17) (v : Word) (s : State) : memWrite (resOffset i) v s = s := by
  simp [memWrite, windowReg_res hi]

/-- A RES word lies in the window, aligned. -/
theorem resOffset_aligned {i : Nat} (hi : i < 17) : resOffset i < 0x1000 ∧ resOffset i % 4 = 0 := by
  unfold resOffset
  omega

/-- Settles O10: a write of STATUS or of a RES word is no write, and CMD reads 0, in the window and over the bus. -/
theorem statusAndResultWritesAreIgnored : Obligations.StatusAndResultWritesAreIgnored := by
  intro s v
  refine ⟨⟨memWrite_status v s, fun i hi => memWrite_res hi v s, memRead_cmd s⟩, fun rest => ⟨?_, fun i hi => ?_, ?_⟩⟩
  · exact hostMove_write_of_ignored (memWrite_status v s) (by decide) rfl rest
  · obtain ⟨ho, ha⟩ := resOffset_aligned hi
    exact hostMove_write_of_ignored (memWrite_res hi v s) ho ha rest
  · exact hostMove_read_of_memRead (memRead_cmd s) (by decide) rfl rest

/-- A RES word read while BUSY = 1 is the next free value. -/
theorem memRead_res_running {s : State} {i : Nat} (hi : i < 17) (hr : s.rst = false) (hb : s.status.busy = true) :
    memRead (resOffset i) s = (Config.busyRead s.fresh, { s with fresh := s.fresh + 1 }) := by
  simp [memRead, hr, hb, windowReg_res hi]

/-- Settles O12: STATUS, a RES word while BUSY = 0, and one while BUSY = 1, in the window and over the bus. -/
theorem statusAndResultReadsAnswerTheirRegisters : Obligations.StatusAndResultReadsAnswerTheirRegisters := by
  intro s hr
  refine ⟨⟨memRead_status hr, fun i hi => ⟨memRead_res hi hr, memRead_res_running hi hr⟩⟩,
    fun rest => ⟨hostMove_read_of_memRead (memRead_status hr) (by decide) rfl rest, fun i hi => ?_⟩⟩
  obtain ⟨ho, ha⟩ := resOffset_aligned hi
  refine ⟨fun hb => hostMove_read_of_memRead (memRead_res hi hr hb) ho ha rest, fun hb => ?_⟩
  have h := hostMove_read_window ho ha rest s
  rwa [memRead_res_running hi hr hb] at h

/-! ## ARG (R206) -/

/-- An ARG word lies in the window, aligned. -/
theorem argOffset_aligned {i : Nat} (hi : i < 17) : argOffset i < 0x1000 ∧ argOffset i % 4 = 0 := by
  unfold argOffset
  omega

/-- An ARG write while BUSY = 1 is lost and sets OVR. -/
theorem memWrite_arg_running {s : State} {i : Nat} (hi : i < 17) (v : Word) (hr : s.rst = false)
    (hb : s.status.busy = true) : memWrite (argOffset i) v s = { s with status := s.status.overrun } := by
  simp [memWrite, hr, hb, windowReg_arg hi]

theorem memRead_arg {s : State} {i : Nat} (hi : i < 17) (hr : s.rst = false) :
    memRead (argOffset i) s = (s.arg[i], s) := by
  simp [memRead, hr, windowReg_arg hi]

/-- A host event that leaves the command in progress leaves ARG: it is no reset. -/
theorem hostMove_running_arg {s : State} {e : HostEvent} {rest : List HostEvent} (hs : Running s)
    (ht : Running (hostMove e rest s)) : (hostMove e rest s).arg = s.arg := by
  have he : e ≠ .assertReset := by
    rintro rfl
    exact absurd ht.1 (by simp [hostMove])
  obtain ⟨_, _, _, _, -, h⟩ := hostAccessDuringCommandChangesOnlyOverrun s e rest hs he
  rw [h]

/-- Settles O11: the write while BUSY = 1, the write while BUSY = 0 and the read, in the window and over the bus. -/
theorem argWordsStoreOnlyWhileIdle : Obligations.ArgWordsStoreOnlyWhileIdle := by
  refine ⟨fun s i hi v ⟨hr, hb⟩ => memWrite_arg_running hi v hr hb, fun s i hi v ⟨hr, hb⟩ => memWrite_arg hi v hr hb,
    fun s i hi hr => memRead_arg hi hr, fun s e rest => hostMove_running_arg, fun s i hi v rest => ?_⟩
  obtain ⟨ho, ha⟩ := argOffset_aligned hi
  have hwrite := hostMove_write_window ho ha v rest s
  refine ⟨fun ⟨hr, hb⟩ => ?_, fun ⟨hr, hb⟩ => ?_, fun hr => hostMove_read_of_memRead (memRead_arg hi hr) ho ha rest⟩
  · rwa [memWrite_arg_running hi v hr hb] at hwrite
  · rwa [memWrite_arg hi v hr hb] at hwrite

/-! ## The byte layout (R210, R211) -/

/-- Byte lane `k` is the byte of worth `2 ^ (8k)`. -/
theorem byteLane_toNat (w : Word) (k : Nat) : (byteLane w k).toNat = w.toNat / 2 ^ (8 * k) % 256 := by
  rw [byteLane, BitVec.extractLsb'_toNat, Nat.shiftRight_eq_div_pow]

theorem bytesOfWord_getElem? (w : Word) {k : Nat} (hk : k < 4) : (bytesOfWord w)[k]? = some (byteLane w k) := by
  interval_cases k <;> rfl

theorem bytesOfWords_cons (w : Word) (ws : List Word) : bytesOfWords (w :: ws) = bytesOfWord w ++ bytesOfWords ws :=
  List.flatMap_cons

theorem bytesOfWords_length (ws : List Word) : (bytesOfWords ws).length = 4 * ws.length := by
  induction ws with
  | nil => rfl
  | cons w ws ih =>
    rw [bytesOfWords_cons, List.length_append, ih, List.length_cons, bytesOfWord]
    simp only [List.length_cons, List.length_nil]
    omega

/-- Byte `4i + k` is lane `k` of word `i`. -/
theorem bytesOfWords_getElem? {ws : List Word} {i k : Nat} (hi : i < ws.length) (hk : k < 4) :
    (bytesOfWords ws)[4 * i + k]? = some (byteLane ws[i] k) := by
  induction ws generalizing i with
  | nil => exact absurd hi (Nat.not_lt_zero _)
  | cons w ws ih =>
    rw [bytesOfWords_cons]
    cases i with
    | zero => rw [Nat.mul_zero, Nat.zero_add, List.getElem?_append_left hk, bytesOfWord_getElem? w hk]; rfl
    | succ i =>
      have hlen : (bytesOfWord w).length ≤ 4 * (i + 1) + k := by
        simp only [bytesOfWord, List.length_cons, List.length_nil]; omega
      have hidx : 4 * (i + 1) + k - (bytesOfWord w).length = 4 * i + k := by
        simp only [bytesOfWord, List.length_cons, List.length_nil]; omega
      rw [List.getElem?_append_right hlen, hidx, ih (Nat.lt_of_succ_lt_succ hi)]
      rfl

/-- The four lanes of a word, the highest first, are the word. -/
theorem byteLanes_append (w : Word) : byteLane w 3 ++ byteLane w 2 ++ byteLane w 1 ++ byteLane w 0 = w := by
  apply BitVec.eq_of_toNat_eq
  have hw := w.isLt
  simp only [toNat_append_eq_add, byteLane_toNat]
  omega

theorem wordsOfBytes_bytesOfWords (ws : List Word) : wordsOfBytes (bytesOfWords ws) = ws := by
  induction ws with
  | nil => rfl
  | cons w ws ih =>
    rw [bytesOfWords_cons, bytesOfWord, List.cons_append, List.cons_append, List.cons_append, List.cons_append,
      List.nil_append, wordsOfBytes, byteLanes_append, ih]

/-- Settles O59: the length, the byte lanes, and the words read back. -/
theorem littleEndianBytesReadBackAsWords : Obligations.LittleEndianBytesReadBackAsWords := fun ws =>
  ⟨bytesOfWords_length ws, fun _ _ hi hk => ⟨_, bytesOfWords_getElem? hi hk, byteLane_toNat _ _⟩,
    wordsOfBytes_bytesOfWords ws⟩

/-! ## Items do not interfere (R217, R554) -/

/-- ENCCHAR on two states of one item: ERR, the RES a success writes, and what stays. -/
theorem execEnccharFrom_item {src : Nat → Nat} {s t s' t' : State} (harg : s.arg[0] = t.arg[0]) (hpk : s.pk = t.pk)
    (hfresh : s.fresh = t.fresh) (hs : execEnccharFrom src s = .next s') (ht : execEnccharFrom src t = .next t') :
    s'.status.err = t'.status.err ∧ (s'.status.err = .noError → s'.res = t'.res) ∧
      (s'.status.err ≠ .noError → s'.res = s.res) ∧ s'.sk = s.sk ∧ s'.pk = s.pk := by
  by_cases hkey : KeyOk s.pk.modulo s.pk.add s.pk.dim
  · by_cases hv : IsScalar (u32 s.arg[0])
    · obtain rfl := Host.Outcome.next.inj ((execEnccharFrom_ok src hkey hv).symm.trans hs)
      obtain rfl := Host.Outcome.next.inj ((execEnccharFrom_ok src (hpk ▸ hkey) (harg ▸ hv)).symm.trans ht)
      exact ⟨rfl, fun _ => by simp only [harg, hpk, hfresh], absurd rfl, rfl, rfl⟩
    · obtain rfl := Host.Outcome.next.inj ((execEnccharFrom_badChar src hkey hv).symm.trans hs)
      obtain rfl := Host.Outcome.next.inj ((execEnccharFrom_badChar src (hpk ▸ hkey) (harg ▸ hv)).symm.trans ht)
      exact ⟨rfl, nofun, fun _ => rfl, rfl, rfl⟩
  · obtain rfl := Host.Outcome.next.inj ((execEnccharFrom_param src hkey).symm.trans hs)
    obtain rfl := Host.Outcome.next.inj ((execEnccharFrom_param src (hpk ▸ hkey)).symm.trans ht)
    exact ⟨rfl, nofun, fun _ => rfl, rfl, rfl⟩

/-- DECCHUNK on two states of one item: ERR, the RES[0] a success writes, and what stays. -/
theorem execDecchunk_item {s t s' t' : State} (harg : s.arg = t.arg) (hsk : s.sk = t.sk)
    (hs : exec .decchunk s = .next s') (ht : exec .decchunk t = .next t') :
    s'.status.err = t'.status.err ∧ (s'.status.err = .noError → s'.res[0] = t'.res[0]) ∧
      (s'.status.err ≠ .noError → s'.res = s.res) ∧ (∀ c : Fin 17, c ≠ 0 → s'.res[c] = s.res[c]) ∧
      s'.sk = s.sk ∧ s'.pk = s.pk := by
  by_cases hkey : KeyOk s.sk.modulo s.sk.add s.sk.dim
  · by_cases hv : IsScalar (decScalar s.sk s.arg)
    · obtain rfl := Host.Outcome.next.inj ((execDecchunk_ok hkey hv).symm.trans hs)
      obtain rfl := Host.Outcome.next.inj ((execDecchunk_ok (hsk ▸ hkey) (harg ▸ hsk ▸ hv)).symm.trans ht)
      refine ⟨rfl, fun _ => ?_, absurd rfl, fun c hc => getElem_set_zero_of_ne _ _ hc, rfl, rfl⟩
      simp only [Vector.getElem_set_self, harg, hsk]
    · obtain rfl := Host.Outcome.next.inj ((execDecchunk_scalar hkey hv).symm.trans hs)
      obtain rfl := Host.Outcome.next.inj ((execDecchunk_scalar (hsk ▸ hkey) (harg ▸ hsk ▸ hv)).symm.trans ht)
      exact ⟨rfl, nofun, fun _ => rfl, fun _ _ => rfl, rfl, rfl⟩
  · obtain rfl := Host.Outcome.next.inj ((execDecchunk_param hkey).symm.trans hs)
    obtain rfl := Host.Outcome.next.inj ((execDecchunk_param (hsk ▸ hkey)).symm.trans ht)
    exact ⟨rfl, nofun, fun _ => rfl, fun _ _ => rfl, rfl, rfl⟩

/-- Settles O49: on one item both commands take the same way, success or error. -/
theorem itemResultsDependOnlyOnTheirItem : Obligations.ItemResultsDependOnlyOnTheirItem :=
  ⟨fun _ _ _ _ _ => execEnccharFrom_item, fun _ _ _ _ => execDecchunk_item⟩

/-! ## Runs of the machine -/

/-- Some number of steps leads from one state to the other. -/
abbrev Reaches : State → State → Prop := Relation.ReflTransGen fun s t => step s = .next t

theorem exists_run_of_reaches {s t : State} (h : Reaches s t) :
    ∃ k, Host.Core.run Sys2Proof.core k s = .next t := by
  induction h using Relation.ReflTransGen.head_induction_on with
  | refl => exact ⟨0, rfl⟩
  | @head s u hstep _ ih =>
    obtain ⟨k, hk⟩ := ih
    exact ⟨k + 1, by simpa only [Host.Core.run, show Sys2Proof.core.step s = .next u from hstep] using hk⟩

/-- With the engine idle, the next event of the host happens. -/
theorem step_idle {s : State} {e : HostEvent} {rest : List HostEvent} (hb : s.status.busy = false)
    (hp : s.pending = e :: rest) : step s = .next (hostMove e rest s) := by
  rcases step_cases s with ⟨-, hb', -⟩ | ⟨-, hb', -⟩ | ⟨-, e', rest', hp', h⟩ | ⟨-, hp', -⟩
  · exact absurd (hb.symm.trans hb') (by decide)
  · exact absurd (hb.symm.trans hb') (by decide)
  · obtain ⟨rfl, rfl⟩ := List.cons.inj (hp.symm.trans hp')
    exact h
  · exact absurd (hp.symm.trans hp') (by simp)

/-- While latency lasts, the next event of the host happens and the latency counts down. -/
theorem step_latency {s : State} {n : Nat} {e : HostEvent} {rest : List HostEvent} (hs : Running s)
    (hl : s.latency = n + 1) (hp : s.pending = e :: rest) :
    step s = .next (hostMove e rest { s with latency := n }) := by
  obtain ⟨hr, hb⟩ := hs
  simp only [step, advance, engineIdle, hr, hb, hl, hp]
  rfl

/-! ## WAIT (R311, R820) -/

@[simp] theorem busyBit_toWord (t : Status) : busyBit t.toWord = t.busy := (statusWordHasTheFieldsOfItsTable t).1

/-- A poll while BUSY = 1 answers STATUS and goes on waiting. -/
theorem hostMove_wait_running {s : State} (rest : List HostEvent) (hs : Running s) :
    hostMove .wait rest s = s.respond (.data s.status.toWord) := by
  obtain ⟨hr, hb⟩ := hs
  simp only [hostMove, memRead_status hr, busyBit_toWord, hb, if_true]

/-- A poll while BUSY = 0 answers STATUS and ends WAIT. -/
theorem hostMove_wait_ready {s : State} (rest : List HostEvent) (hs : Ready s) :
    hostMove .wait rest s = { s with pending := rest, responses := .data s.status.toWord :: s.responses } := by
  obtain ⟨hr, hb⟩ := hs
  simp [hostMove, memRead_status hr, busyBit_toWord, hb, State.respond]

/-- The polls of WAIT use up any latency, and the command completes. -/
theorem reaches_completion_of_wait {s t : State} (hs : Running s) (ht : completeCommand s = .next t) (l : Nat)
    (rest : List HostEvent) (rs : List HostResponse) :
    ∃ rs', Reaches (s.withOutside l (.wait :: rest) rs) (t.withOutside 0 (.wait :: rest) rs') := by
  induction l generalizing rs with
  | zero =>
    refine ⟨rs, .single ?_⟩
    rw [step_eq_completeCommand (s := s.withOutside 0 _ rs) hs (.inl rfl), completeCommand_withOutside, ht]
    rfl
  | succ n ih =>
    obtain ⟨rs', h⟩ := ih (.data s.status.toWord :: rs)
    refine ⟨rs', .head ?_ h⟩
    rw [step_latency (s := s.withOutside (n + 1) _ rs) hs rfl rfl,
      hostMove_wait_running (s := { s.withOutside (n + 1) _ rs with latency := n }) rest hs]
    rfl

/-! ## EXEC access by access (R320) -/

theorem errField_eq (w : Word) : errField w = w.toNat / 16 % 16 := by
  rw [errField, BitVec.extractLsb'_toNat, Nat.shiftRight_eq_div_pow]

@[simp] theorem errField_toWord (t : Status) : errField t.toWord = t.err.code := by
  rw [errField_eq, (statusWordHasTheFieldsOfItsTable t).2.2.2.2.2.2]
  cases t.err <;> rfl

theorem ErrCode.code_eq_zero_iff (c : ErrCode) : c.code = 0 ↔ c = .noError := by
  cases c <;> decide

/-- The accesses of EXEC, made one by one on a ready block, end in the completed command's state: the CMD write issues
it, the polls of WAIT outlast it, and the last poll and the read answer STATUS. -/
theorem reaches_of_queued_exec {s t : State} (w : Word) (hs : Ready s) (ht : completeCommand (issue w s) = .next t) :
    ∃ rs, Reaches
      { s with pending := [HostStmt.event (.cmd w), HostStmt.event .wait, HostStmt.event .readStatus] }
      (t.withOutside 0 [] (.data t.status.toWord :: rs)) := by
  have hcompleted : Ready t := by
    obtain ⟨t', ht', hbt, -, hrt, -⟩ := completeCommand_next (issue w s)
    obtain rfl := Host.Outcome.next.inj (ht.symm.trans ht')
    exact ⟨hrt.trans hs.1, hbt⟩
  obtain ⟨rs, hwait⟩ := reaches_completion_of_wait (s := issue w s) ⟨hs.1, rfl⟩ ht (Config.latency s.fresh)
    [HostStmt.event .readStatus] (.written :: s.responses)
  have hissue : Reaches
      { s with pending := [HostStmt.event (.cmd w), HostStmt.event .wait, HostStmt.event .readStatus] }
      ((issue w s).withOutside (Config.latency s.fresh) [.wait, HostStmt.event .readStatus]
        (.written :: s.responses)) := .single <| by
    rw [step_idle (by exact hs.2) rfl, HostStmt.event, hostMove_write_window (by decide) rfl, memWrite_withPending,
      memWrite_cmd w hs.1 hs.2]
    rfl
  have hpoll : Reaches (t.withOutside 0 [.wait, HostStmt.event .readStatus] rs)
      (t.withOutside 0 [HostStmt.event .readStatus] (.data t.status.toWord :: rs)) := .single <| by
    rw [step_idle (s := t.withOutside 0 _ rs) hcompleted.2 rfl,
      hostMove_wait_ready (s := t.withOutside 0 _ rs) _ hcompleted]
    rfl
  have hread : Reaches (t.withOutside 0 [HostStmt.event .readStatus] (.data t.status.toWord :: rs))
      (t.withOutside 0 [] (.data t.status.toWord :: .data t.status.toWord :: rs)) := .single <| by
    rw [step_idle (s := t.withOutside 0 _ _) hcompleted.2 rfl, HostStmt.event,
      hostMove_read_of_memRead (memRead_status (s := t.withOutside 0 _ _) hcompleted.1) (by decide) rfl]
    rfl
  exact ⟨_, hissue.trans (hwait.trans (hpoll.trans hread))⟩

/-- Settles O60: the queued accesses end in the state of EXEC's completed command, whose ERR field decides both. -/
theorem queuedExecReachesTheDriversState : Obligations.QueuedExecReachesTheDriversState := by
  intro s w hs
  obtain ⟨t, ht, hrt, hbt, hexec⟩ := hostExec_ready w hs.1 hs.2
  obtain ⟨rs, hreach⟩ := reaches_of_queued_exec w hs ht
  obtain ⟨k, hk⟩ := exists_run_of_reaches hreach
  rw [errField_toWord] at hexec
  have hstate : (hostExec w s).2 = t := by rw [hexec]; split <;> rfl
  refine ⟨k, _, hk, rfl, ⟨hrt, hbt⟩, ?_, ?_, ?_, ?_, ?_, ?_, rfl, fun herr => ?_, fun herr => ?_⟩
  case refine_7 => rw [hexec, if_pos (t.status.err.code_eq_zero_iff.2 herr)]
  case refine_8 =>
    rw [hexec, if_neg (mt t.status.err.code_eq_zero_iff.1 herr), ← errField_toWord, errField_eq]
    rfl
  all_goals rw [hstate]; rfl

end Sys2Proof.Machine

/-! ## Sums of words that do not wrap (R401, R405, R503) -/

namespace Sys2Proof

/-- The sum of up to four numbers of a range around 0 lies in four times the range. -/
theorem sum_range_of_length_le_four {xs : List Int} {lo hi : Int} (hlen : xs.length ≤ 4) (hlo : lo ≤ 0) (hhi : 0 ≤ hi)
    (h : ∀ x ∈ xs, lo ≤ x ∧ x ≤ hi) : 4 * lo ≤ xs.sum ∧ xs.sum ≤ 4 * hi := by
  have hlen' : (xs.length : Int) ≤ 4 := by exact_mod_cast hlen
  have h₁ := List.card_nsmul_le_sum xs lo fun x hx => (h x hx).1
  have h₂ := List.sum_le_card_nsmul xs hi fun x hx => (h x hx).2
  rw [nsmul_eq_mul] at h₁ h₂
  constructor <;> nlinarith

/-- The sum of up to four words of a range around 0 is the sum of their values, when four times the range fits. -/
theorem s32_sum_map {js : List Nat} {f : Nat → Word} {lo hi : Int} (hlen : js.length ≤ 4) (hlo : lo ≤ 0) (hhi : 0 ≤ hi)
    (hfit : -2147483648 ≤ 4 * lo ∧ 4 * hi < 2147483648) (h : ∀ j ∈ js, lo ≤ s32 (f j) ∧ s32 (f j) ≤ hi) :
    s32 (js.map f).sum = (js.map fun j => s32 (f j)).sum ∧
      4 * lo ≤ s32 (js.map f).sum ∧ s32 (js.map f).sum ≤ 4 * hi := by
  obtain ⟨h₁, h₂⟩ := sum_range_of_length_le_four (xs := js.map fun j => s32 (f j)) (by rwa [List.length_map]) hlo hhi
    (List.forall_mem_map.2 h)
  have hwrap : wrap32 (js.map fun j => s32 (f j)).sum = (js.map f).sum := by
    rw [wrap32_sum, List.map_map]
    simp [Function.comp_def]
  have hexact : s32 (js.map f).sum = (js.map fun j => s32 (f j)).sum := by
    rw [← hwrap, s32_wrap32_of_range (by omega) (by omega)]
  exact ⟨hexact, by rwa [hexact], by rwa [hexact]⟩

end Sys2Proof

namespace Sys2Proof.Machine

open Sys2Proof.Safety

/-- Sixteen products of factors bounded by `K` and `V` sum to at most `16·K·V` in magnitude. -/
theorem abs_sum_mul_le {k v : Fin 16 → Int} {K V : Int} (hk : ∀ i, |k i| ≤ K) (hv : ∀ i, |v i| ≤ V) :
    |∑ i, k i * v i| ≤ 16 * (K * V) := by
  have hterm (i : Fin 16) : |k i * v i| ≤ K * V := by
    rw [abs_mul]
    exact mul_le_mul (hk i) (hv i) (abs_nonneg _) ((abs_nonneg _).trans (hk i))
  calc |∑ i, k i * v i| ≤ ∑ i, |k i * v i| := Finset.abs_sum_le_sum_abs _ _
    _ ≤ ∑ _i : Fin 16, K * V := Finset.sum_le_sum fun i _ => hterm i
    _ = 16 * (K * V) := by simp

/-- The dot product is exact when its factors are bounded by `K` and `V` with `16·K·V < 2^31` (R462, R553). -/
theorem s32_dot16 {K : Vector Word 16} {V : Row} {bK bV : Int} (hK : ∀ i : Fin 16, |s32 K[i]| ≤ bK)
    (hV : ∀ i : Fin 16, |s32 V[i.castSucc]| ≤ bV) (hb : 16 * (bK * bV) < 2147483648) :
    s32 (dot16 K V) = ∑ i : Fin 16, s32 K[i] * s32 V[i.castSucc] ∧ |s32 (dot16 K V)| ≤ 16 * (bK * bV) := by
  have hsum := abs_sum_mul_le hK hV
  obtain ⟨h₁, h₂⟩ := abs_le.1 hsum
  have hexact : s32 (dot16 K V) = ∑ i : Fin 16, s32 K[i] * s32 V[i.castSucc] :=
    s32_wrap32_of_range (by omega) (by omega)
  exact ⟨hexact, hexact ▸ hsum⟩

/-! ## The chunk of an encryption (R500) -/

/-- Word `c` of the summed rows is the sum of their words `c`. -/
theorem getElem_rowSum (pk : PublicKey) (js : List Nat) (c : Fin 17) :
    (rowSum pk js)[c] = (js.map fun j => (pk.row j)[c]).sum := by
  have hfold (out : Row) : (js.foldl (fun out j => rowadd out (pk.row j)) out)[c] =
      out[c] + (js.map fun j => (pk.row j)[c]).sum := by
    induction js generalizing out with
    | nil => simp
    | cons j js ih => rw [List.foldl_cons, ih, getElem_rowadd, List.map_cons, List.sum_cons, BitVec.add_assoc]
  rw [rowSum, hfold]
  simp [zeroRow]

/-- The coefficients of a chunk are those of the summed rows. -/
theorem getElem_encChunk_castSucc (pk : PublicKey) (v : Int) (js : List Nat) (c : Fin 16) :
    (encChunk pk v js)[c.castSucc] = (js.map fun j => (pk.row j)[c.castSucc]).sum := by
  rw [← getElem_rowSum]
  have hc : 16 ≠ c.val := c.isLt.ne'
  simp [encChunk, Vector.getElem_set_ne, hc]

/-- The last word of a chunk folds the character into the summed `b` terms. -/
theorem getElem_encChunk_last (pk : PublicKey) (v : Int) (js : List Nat) :
    (encChunk pk v js)[16] =
      wrap32 (modulus (s32 (wrap32 (s32 (rowSum pk js)[16] + s32 (encodeScale v (s32 pk.add))))) (s32 pk.modulo)) :=
  Vector.getElem_set_self _

/-! ## The numbers of a generated key (R451, R462) -/

section GeneratedKey

variable {sk : SecretKey} {pk : PublicKey} {e : Fin 170 → Int} {js : List Nat} {v : Int}

theorem keyOk_of_shape (h : SkShape sk) : KeyOk sk.modulo sk.add sk.dim := by
  obtain ⟨-, ⟨hq₁, hq₂⟩, hadd, hdim⟩ := h
  refine ⟨by omega, ?_, hdim⟩
  rw [hadd, Int.tdiv_eq_ediv_of_nonneg (by omega)]
  omega

theorem keyOk_of_derived (h : SkShape sk) (hd : DerivedWith sk pk e) : KeyOk pk.modulo pk.add pk.dim := by
  obtain ⟨⟨hm, ha, hdim⟩, -⟩ := hd
  rw [hm, ha, hdim]
  exact keyOk_of_shape h

/-- `add` of a generated key: at least 9 and at most 99, its product by MAX_CHR being at most `q`. -/
theorem add_range_of_shape (h : SkShape sk) :
    9 ≤ s32 sk.add ∧ s32 sk.add ≤ 99 ∧ 1114111 * s32 sk.add ≤ s32 sk.modulo := by
  obtain ⟨-, ⟨hq₁, hq₂⟩, hadd, -⟩ := h
  rw [Int.tdiv_eq_ediv_of_nonneg (by omega)] at hadd
  omega

/-- The noise of a generated key is bounded by a tenth of `add`. -/
theorem noise_range (h : SkShape sk) {x : Int} (hx : NoiseIn (Int.tdiv (s32 sk.add) 10) x) :
    |x| ≤ Int.tdiv (s32 sk.add) 10 := by
  have hadd := (add_range_of_shape h).1
  have hnn : 0 ≤ Int.tdiv (s32 sk.add) 10 := Int.tdiv_nonneg (by omega) (by decide)
  obtain ⟨hpos, hzero⟩ := hx
  rw [abs_le]
  rcases hnn.eq_or_lt with h0 | h1
  · have := hzero h0.symm
    omega
  · have := hpos h1
    omega

theorem abs_key_le (h : SkShape sk) (i : Fin 16) : |s32 sk.key[i]| ≤ 4096 := by
  obtain ⟨hkey, -⟩ := h
  have := hkey i
  rw [abs_le]
  omega

theorem abs_coeff_le (hd : DerivedWith sk pk e) {j : Nat} (hj : j < 170) (c : Fin 16) :
    |s32 (pk.row j)[c.castSucc]| ≤ 4096 := by
  obtain ⟨hcoeff, -⟩ := hd.2 ⟨j, hj⟩
  have := hcoeff c
  dsimp only at this
  rw [abs_le]
  omega

/-- The dot product of a generated row is at most 2^28 in magnitude (R462). -/
theorem abs_dot16_row_le (h : SkShape sk) (hd : DerivedWith sk pk e) {j : Nat} (hj : j < 170) :
    |s32 (dot16 sk.key (pk.row j))| ≤ 268435456 :=
  (s32_dot16 (abs_key_le h) (abs_coeff_le hd hj) (by decide)).2

/-- The `b` term of a generated row, nothing in it wrapping (R462). -/
theorem s32_row_last (h : SkShape sk) (hd : DerivedWith sk pk e) {j : Nat} (hj : j < 170) :
    s32 (pk.row j)[16] = modulus (s32 (dot16 sk.key (pk.row j)) + e ⟨j, hj⟩) (s32 sk.modulo) := by
  obtain ⟨-, hnoise, hlast⟩ := hd.2 ⟨j, hj⟩
  dsimp only at hlast
  obtain ⟨hadd₁, hadd₂, -⟩ := add_range_of_shape h
  have he := abs_le.1 (noise_range h hnoise)
  have hdot := abs_le.1 (abs_dot16_row_le h hd hj)
  rw [Int.tdiv_eq_ediv_of_nonneg (by omega)] at he
  rwa [s32_wrap32_of_range (by omega) (by omega)] at hlast

theorem row_last_range (h : SkShape sk) (hd : DerivedWith sk pk e) {j : Nat} (hj : j < 170) :
    (0 : Int) ≤ s32 (pk.row j)[16] ∧ s32 (pk.row j)[16] ≤ s32 sk.modulo - 1 := by
  obtain ⟨hq, -⟩ := keyOk_of_shape h
  rw [s32_row_last h hd hj]
  exact ⟨modulus_nonneg _ hq, Int.le_sub_one_of_lt (modulus_lt _ hq)⟩

/-! ## The chunk of a generated key (R503, R504) -/

/-- A sampled row is a row of the key. -/
theorem lt_of_sampled (hjs : Sampled js) {j : Nat} (hj : j ∈ js) : j < 170 := (hjs.2 j hj).trans (by decide)

/-- The coefficients of a chunk are the exact sums, at most 2^14 in magnitude (R503). -/
theorem s32_chunk_coeff (hd : DerivedWith sk pk e) (hjs : Sampled js) (v : Int) (c : Fin 16) :
    s32 (encChunk pk v js)[c.castSucc] = (js.map fun j => s32 (pk.row j)[c.castSucc]).sum ∧
      |s32 (encChunk pk v js)[c.castSucc]| ≤ 16384 := by
  obtain ⟨hexact, hsum⟩ := s32_sum_map (f := fun j => (pk.row j)[c.castSucc]) (lo := -4096) (hi := 4096) hjs.1.2
    (by decide) (by decide) (by decide) fun j hj => abs_le.1 (abs_coeff_le hd (lt_of_sampled hjs hj) c)
  rw [getElem_encChunk_castSucc, abs_le]
  exact ⟨hexact, hsum⟩

/-- The summed `b` terms are exact, and lie in [0, 4·(q - 1)] (R503). -/
theorem s32_rowSum_last (h : SkShape sk) (hd : DerivedWith sk pk e) (hjs : Sampled js) :
    s32 (rowSum pk js)[16] = (js.map fun j => s32 (pk.row j)[16]).sum ∧
      (0 : Int) ≤ s32 (rowSum pk js)[16] ∧ s32 (rowSum pk js)[16] ≤ 4 * (s32 sk.modulo - 1) := by
  have hq := h.2.1
  have hsum := s32_sum_map (f := fun j => (pk.row j)[16]) hjs.1.2 le_rfl (by omega) (by omega) fun j hj =>
    row_last_range h hd (lt_of_sampled hjs hj)
  rw [show (rowSum pk js)[16] = (js.map fun j => (pk.row j)[16]).sum from getElem_rowSum pk js 16]
  exact hsum

/-- `char_num` is exact and at most `q` (R503). -/
theorem s32_encodeScale (h : SkShape sk) (hv : IsScalar v) :
    s32 (encodeScale v (s32 sk.add)) = v * s32 sk.add ∧ 0 ≤ v * s32 sk.add ∧ v * s32 sk.add ≤ s32 sk.modulo := by
  obtain ⟨hv₁, hv₂, -⟩ := hv
  obtain ⟨hadd₁, -, hadd₃⟩ := add_range_of_shape h
  have hnn : 0 ≤ v * s32 sk.add := mul_nonneg hv₁ (by omega)
  have hle : v * s32 sk.add ≤ s32 sk.modulo := (mul_le_mul_of_nonneg_right hv₂ (by omega)).trans hadd₃
  exact ⟨s32_wrap32_of_range (by omega) (hle.trans_lt (s32_range _).2), hnn, hle⟩

/-- The last word of a chunk is the residue of the exact sum of the `b` terms and `char_num` (R503). -/
theorem s32_chunk_last (h : SkShape sk) (hd : DerivedWith sk pk e) (hjs : Sampled js) (hv : IsScalar v) :
    s32 (encChunk pk v js)[16] =
      modulus ((js.map fun j => s32 (pk.row j)[16]).sum + v * s32 sk.add) (s32 sk.modulo) := by
  have hq := h.2.1
  obtain ⟨hm, ha, -⟩ := hd.1
  obtain ⟨hsum, hsum₁, hsum₂⟩ := s32_rowSum_last h hd hjs
  obtain ⟨hscale, hv₁, hv₂⟩ := s32_encodeScale h hv
  rw [getElem_encChunk_last, hm, ha, s32_wrap32_modulus _ (by omega), hscale, s32_wrap32_of_range (by omega) (by omega),
    hsum]

theorem chunk_last_range (h : SkShape sk) (hd : DerivedWith sk pk e) (hjs : Sampled js) (hv : IsScalar v) :
    (0 : Int) ≤ s32 (encChunk pk v js)[16] ∧ s32 (encChunk pk v js)[16] < s32 sk.modulo := by
  obtain ⟨hq, -⟩ := keyOk_of_shape h
  rw [s32_chunk_last h hd hjs hv]
  exact ⟨modulus_nonneg _ hq, modulus_lt _ hq⟩

/-- The dot product passes to each of the summed rows. -/
theorem sum_mul_sum_map (k : Fin 16 → Int) (a : Nat → Fin 16 → Int) (js : List Nat) :
    ∑ i, k i * (js.map fun j => a j i).sum = (js.map fun j => ∑ i, k i * a j i).sum := by
  induction js with
  | nil => simp
  | cons j js ih => simp only [List.map_cons, List.sum_cons, mul_add, Finset.sum_add_distrib, ih]

/-- The dot product of a chunk is at most 2^30 in magnitude, and the sum of those of its rows (R553). -/
theorem s32_dot16_chunk (h : SkShape sk) (hd : DerivedWith sk pk e) (hjs : Sampled js) (v : Int) :
    s32 (dot16 sk.key (encChunk pk v js)) = (js.map fun j => s32 (dot16 sk.key (pk.row j))).sum ∧
      |s32 (dot16 sk.key (encChunk pk v js))| ≤ 1073741824 := by
  obtain ⟨hdot, hle⟩ := s32_dot16 (abs_key_le h) (fun c => (s32_chunk_coeff hd hjs v c).2) (by decide)
  have hrow (j : Nat) (hj : j ∈ js) :
      s32 (dot16 sk.key (pk.row j)) = ∑ i : Fin 16, s32 sk.key[i] * s32 (pk.row j)[i.castSucc] :=
    (s32_dot16 (abs_key_le h) (abs_coeff_le hd (lt_of_sampled hjs hj)) (by decide)).1
  refine ⟨?_, hle⟩
  simp only [hdot, s32_chunk_coeff hd hjs v]
  rw [sum_mul_sum_map, List.map_congr_left hrow]

/-- The `b` terms carry the dot products under the noise (R504). -/
theorem dvd_sum_row_last (h : SkShape sk) (hd : DerivedWith sk pk e) (hlt : ∀ j ∈ js, j < 170) :
    s32 sk.modulo ∣ (js.map fun j => s32 (pk.row j)[16]).sum -
      ((js.map fun j => s32 (dot16 sk.key (pk.row j))).sum + noiseSum e js) := by
  induction js with
  | nil => simp [noiseSum]
  | cons j js ih =>
    obtain ⟨hj, hjs⟩ := List.forall_mem_cons.1 hlt
    have hhead := dvd_sub_modulus (s32 (dot16 sk.key (pk.row j)) + e ⟨j, hj⟩) (keyOk_of_shape h).1
    rw [← s32_row_last h hd hj] at hhead
    convert Int.dvd_sub (ih hjs) hhead using 1
    simp only [noiseSum, List.map_cons, List.sum_cons, hj, dif_pos]
    ring

/-! ## Decryption under the noise (R551, R552) -/

/-- The summed noise is at most four tenths of `add` in magnitude (R551). -/
theorem abs_noiseSum_le (h : SkShape sk) (hd : DerivedWith sk pk e) (hjs : Sampled js) :
    |noiseSum e js| ≤ 4 * Int.tdiv (s32 sk.add) 10 := by
  have hnoise (j : Nat) (hj : j ∈ js) : |if h : j < 170 then e ⟨j, h⟩ else 0| ≤ Int.tdiv (s32 sk.add) 10 := by
    rw [dif_pos (lt_of_sampled hjs hj)]
    exact noise_range h (hd.2 ⟨j, _⟩).2.1
  have hnn : 0 ≤ Int.tdiv (s32 sk.add) 10 := Int.tdiv_nonneg (by linarith [(add_range_of_shape h).1]) (by decide)
  obtain ⟨h₁, h₂⟩ := sum_range_of_length_le_four (xs := js.map fun j => if h : j < 170 then e ⟨j, h⟩ else 0)
    (by rw [List.length_map]; exact hjs.1.2) (neg_nonpos.2 hnn) hnn
    (List.forall_mem_map.2 fun j hj => abs_le.1 (hnoise j hj))
  rw [noiseSum, abs_le]
  exact ⟨by linarith, h₂⟩

/-- The decrypted value is the residue of the scaled character and the noise (R551). -/
theorem decValue_encChunk (h : SkShape sk) (hd : DerivedWith sk pk e) (hjs : Sampled js) (hv : IsScalar v) :
    decValue sk (encChunk pk v js) = modulus (v * s32 sk.add + noiseSum e js) (s32 sk.modulo) := by
  have hq := h.2.1
  have hlast := chunk_last_range h hd hjs hv
  obtain ⟨hdot, hdot'⟩ := s32_dot16_chunk h hd hjs v
  rw [abs_le] at hdot'
  rw [decValue, s32_wrap32_of_range (by omega) (by omega)]
  apply modulus_eq_of_dvd (by omega)
  have hrows := dvd_sum_row_last h hd fun j => lt_of_sampled hjs
  have hmod := dvd_sub_modulus ((js.map fun j => s32 (pk.row j)[16]).sum + v * s32 sk.add) (keyOk_of_shape h).1
  rw [← s32_chunk_last h hd hjs hv] at hmod
  convert Int.dvd_sub hrows hmod using 1
  rw [hdot]
  ring

/-- A value that stays in [0, q) under the noise decrypts to its character (R551). -/
theorem decScalar_encChunk (h : SkShape sk) (hd : DerivedWith sk pk e) (hjs : Sampled js) (hv : IsScalar v)
    (h₁ : 0 ≤ v * s32 sk.add + noiseSum e js) (h₂ : v * s32 sk.add + noiseSum e js < s32 sk.modulo) :
    decScalar sk (encChunk pk v js) = v := by
  obtain ⟨hq, hadd, -⟩ := keyOk_of_shape h
  have hnoise := abs_le.1 (abs_noiseSum_le h hd hjs)
  rw [Int.tdiv_eq_ediv_of_nonneg hadd.le] at hnoise
  rw [decScalar, decValue_encChunk h hd hjs hv, modulus_eq_emod _ hq, Int.emod_eq_of_lt h₁ h₂,
    roundHalfUp_eq_iff hadd]
  constructor <;> linarith [Int.ediv_mul_le (s32 sk.add) (show (10 : Int) ≠ 0 by decide)]

/-- A character that is not one of the two ends decrypts to itself under every noise (R552). -/
theorem decScalar_encChunk_of_inner (h : SkShape sk) (hd : DerivedWith sk pk e) (hjs : Sampled js) (hv : IsScalar v)
    (h0 : v ≠ 0) (htop : v ≠ 0x10FFFF) : decScalar sk (encChunk pk v js) = v := by
  obtain ⟨hadd₁, -, hadd₃⟩ := add_range_of_shape h
  have hnoise := abs_le.1 (abs_noiseSum_le h hd hjs)
  rw [Int.tdiv_eq_ediv_of_nonneg (by omega)] at hnoise
  have ⟨hv₁, hv₂, _⟩ := hv
  have hlo : s32 sk.add ≤ v * s32 sk.add := le_mul_of_one_le_left (by omega) (by omega)
  have hhi : v * s32 sk.add ≤ 1114110 * s32 sk.add := mul_le_mul_of_nonneg_right (by omega) (by omega)
  exact decScalar_encChunk h hd hjs hv (by omega) (by omega)

end GeneratedKey

/-! ## EXEC of a command that succeeds (R320) -/

/-- A command that commits makes EXEC succeed in the committed state. -/
theorem hostExec_commit {i : Instr} {s u : State} (hs : Ready s) (hi : i.wellFormed = true)
    (h : exec i (issue (encode i) s) = commit u) :
    hostExec (encode i) s = (.ok (), { u with status := u.status.completed .noError }) := by
  obtain ⟨t, ht, -, -, hexec⟩ := hostExec_ready (encode i) hs.1 hs.2
  rw [completeCommand_of_decode (s := issue (encode i) s) (decode_encode hi), h] at ht
  obtain rfl := Host.Outcome.next.inj ht
  rw [hexec, errField_toWord]
  exact if_pos rfl

/-! ## What an encryption samples (R500, R502) -/

theorem drawCount_range (src : Nat → Nat) (n : Nat) : 2 ≤ drawCount src n ∧ drawCount src n ≤ 4 := by
  have := draw_range (src n) (show (2 : Int) < 5 by decide)
  unfold drawCount Config.repLo Config.repHi
  omega

theorem drawRows_length (src : Nat → Nat) (n k : Nat) : (drawRows src n k).length = k := by
  induction k generalizing n with
  | zero => rfl
  | succ k ih => rw [drawRows, List.length_cons, ih]

theorem drawRows_lt (src : Nat → Nat) (n k : Nat) : ∀ j ∈ drawRows src n k, j < 160 := by
  induction k generalizing n with
  | zero => exact nofun
  | succ k ih =>
    have := draw_range (src n) (show (0 : Int) < 160 by decide)
    unfold drawRows Config.sampleRows
    exact List.forall_mem_cons.2 ⟨by omega, ih (n + 1)⟩

/-- Whatever the source, the drawn rows are two to four rows below 160. -/
theorem sampled_drawRows (src : Nat → Nat) (n m : Nat) : Sampled (drawRows src n (drawCount src m)) :=
  ⟨by rw [drawRows_length]; exact drawCount_range src m, drawRows_lt src n _⟩

/-! ## ENCSTR (R321) -/

/-- `READ RES` of `n` words from word `i` on. -/
theorem readResults_eq {s : State} (hs : Ready s) {i n : Nat} (h : i + n ≤ 17) :
    readResults i n s = ((s.res.toList.drop i).take n, s) := by
  induction n generalizing i with
  | zero => rfl
  | succ n ih =>
    have hi : i < s.res.toList.length := by simp; omega
    rw [readResults, memRead_res (by omega) hs.1 hs.2, List.drop_eq_getElem_cons hi, List.take_succ_cons]
    simp only [ih (show i + 1 + n ≤ 17 by omega), Vector.getElem_toList]

theorem readResults_all {s : State} (hs : Ready s) : readResults 0 17 s = (s.res.toList, s) := by
  rw [readResults_eq hs le_rfl, List.drop_zero, List.take_of_length_le (by simp)]

/-- The chunk is one that ENCCHAR can make of the character. -/
def ChunkOf (pk : PublicKey) (v : Int) (chunk : Row) : Prop := ∃ js, Sampled js ∧ chunk = encChunk pk v js

/-- ENCCHAR of a character commits a chunk of it to RES. -/
theorem exec_encchar_commit {s : State} {v : Int} (hkey : KeyOk s.pk.modulo s.pk.add s.pk.dim)
    (harg : u32 s.arg[0] = v) (hv : IsScalar v) :
    ∃ chunk f, ChunkOf s.pk v chunk ∧ exec .encchar s = commit { s with res := chunk, fresh := f } := by
  subst harg
  exact ⟨_, _, ⟨_, sampled_drawRows _ _ _, rfl⟩, execEnccharFrom_ok _ hkey hv⟩

/-- ARG and EXEC ENCCHAR of a character leave a chunk of it in RES, and both keys. -/
theorem hostExec_encchar {s : State} {v : Int} (hs : Ready s) (hkey : KeyOk s.pk.modulo s.pk.add s.pk.dim)
    (hv : IsScalar v) :
    ∃ t, hostExec (encode .encchar) (memWrite (argOffset 0) (wrap32 v) s) = (.ok (), t) ∧ ChunkOf s.pk v t.res ∧
      Ready t ∧ t.sk = s.sk ∧ t.pk = s.pk := by
  have ⟨hv₁, hv₂, _⟩ := hv
  have harg : u32 (s.arg.set 0 (wrap32 v))[0] = v := by
    rw [Vector.getElem_set_self, u32_wrap32_of_range hv₁ (by omega)]
  obtain ⟨chunk, f, hchunk, hexec⟩ := exec_encchar_commit
    (s := issue (encode .encchar) { s with arg := s.arg.set 0 (wrap32 v) }) hkey harg hv
  rw [memWrite_arg (by decide) _ hs.1 hs.2]
  exact ⟨_, hostExec_commit hs rfl hexec, hchunk, ⟨hs.1, rfl⟩, rfl, rfl⟩

/-- ENCSTR gives a chunk for each character and leaves the block ready with its keys. -/
theorem encStr_chunks {m : List Int} {s : State} (hs : Ready s) (hkey : KeyOk s.pk.modulo s.pk.add s.pk.dim)
    (hm : ∀ v ∈ m, IsScalar v) :
    ∃ (chunks : List Row) (t : State), encStr m s = (.ok (chunks.flatMap Vector.toList), t) ∧
      List.Forall₂ (ChunkOf s.pk) m chunks ∧ Ready t ∧ t.sk = s.sk := by
  induction m generalizing s with
  | nil => exact ⟨[], s, rfl, .nil, hs, rfl⟩
  | cons v m ih =>
    obtain ⟨hv, hm⟩ := List.forall_mem_cons.1 hm
    obtain ⟨t, hexec, hchunk, ht, hsk, hpk⟩ := hostExec_encchar hs hkey hv
    obtain ⟨chunks, u, hrest, hchunks, hu, hsk'⟩ := ih ht (hpk ▸ hkey) hm
    refine ⟨t.res :: chunks, u, ?_, .cons hchunk (hpk ▸ hchunks), hu, hsk'.trans hsk⟩
    simp only [encStr, hexec, readResults_all ht, hrest, List.flatMap_cons]

/-! ## DECBUF (R322) -/

/-- `ARG` of the words from word `i` to the last. -/
theorem writeArgs_eq {s : State} (hs : Ready s) {ws : List Word} {i : Nat} (h : i + ws.length = 17) :
    ∃ arg : Row, writeArgs i ws s = { s with arg := arg } ∧ arg.toList = s.arg.toList.take i ++ ws := by
  induction ws generalizing s i with
  | nil => exact ⟨s.arg, rfl, by simp_all⟩
  | cons w ws ih =>
    rw [List.length_cons] at h
    obtain ⟨arg, hwrite, harg⟩ := ih (s := { s with arg := s.arg.set i w }) hs (i := i + 1) (by omega)
    refine ⟨arg, ?_, ?_⟩
    · rw [writeArgs, memWrite_arg (by omega) w hs.1 hs.2, hwrite]
    · have hi : i < (s.arg.set i w).toList.length := by simp; omega
      rw [harg, List.take_succ_eq_append_getElem hi, Vector.getElem_toList, Vector.getElem_set_self, Vector.toList_set,
        List.take_set_of_le le_rfl, List.append_assoc, List.singleton_append]

theorem writeArgs_row {s : State} (hs : Ready s) (chunk : Row) :
    writeArgs 0 chunk.toList s = { s with arg := chunk } := by
  obtain ⟨arg, hwrite, harg⟩ := writeArgs_eq hs (ws := chunk.toList) (i := 0) (by simp)
  rw [hwrite, Vector.toList_inj.1 harg]

/-- The chunk decrypts to the character. -/
def DecryptsTo (sk : SecretKey) (v : Int) (chunk : Row) : Prop := IsScalar v ∧ decScalar sk chunk = v

/-- ARG of a chunk and EXEC DECCHUNK leave its character in RES[0]. -/
theorem hostExec_decchunk {s : State} {v : Int} {chunk : Row} (hs : Ready s)
    (hkey : KeyOk s.sk.modulo s.sk.add s.sk.dim) (hv : DecryptsTo s.sk v chunk) :
    ∃ t, hostExec (encode .decchunk) { s with arg := chunk } = (.ok (), t) ∧ s32 t.res[0] = v ∧ Ready t ∧
      t.sk = s.sk := by
  obtain ⟨⟨hv₁, hv₂, hv₃⟩, hdec⟩ := hv
  have hexec := execDecchunk_ok (s := issue (encode .decchunk) { s with arg := chunk }) hkey
    (by simp only [issue_sk, issue_arg, hdec]; exact ⟨hv₁, hv₂, hv₃⟩)
  refine ⟨_, hostExec_commit hs rfl hexec, ?_, ⟨hs.1, rfl⟩, rfl⟩
  simp only [Vector.getElem_set_self, issue_sk, issue_arg, hdec]
  exact s32_wrap32_of_range (by omega) (by omega)

/-- The chunks of DECBUF, each decrypting to its character, give the characters. -/
theorem decChunks_chunks {m : List Int} {chunks : List Row} {s : State} (hs : Ready s)
    (hkey : KeyOk s.sk.modulo s.sk.add s.sk.dim) (h : List.Forall₂ (DecryptsTo s.sk) m chunks) :
    ∃ u, decChunks m.length (chunks.flatMap Vector.toList) s = (.ok m, u) := by
  induction m generalizing chunks s with
  | nil => exact ⟨s, rfl⟩
  | cons v m ih =>
    obtain ⟨chunk, chunks, hchunk, hchunks, rfl⟩ := List.forall₂_cons_left_iff.1 h
    obtain ⟨t, hexec, hres, ht, hsk⟩ := hostExec_decchunk hs hkey hchunk
    obtain ⟨u, hrest⟩ := ih ht (hsk ▸ hkey) (hsk ▸ hchunks)
    have hlen : chunk.toList.length = 17 := by simp
    refine ⟨u, ?_⟩
    rw [List.length_cons, List.flatMap_cons, decChunks, List.take_left' hlen, List.drop_left' hlen,
      writeArgs_row hs, hexec]
    simp only [memRead_res (show 0 < 17 by decide) ht.1 ht.2, hrest, hres]

theorem flatMap_toList_length (chunks : List Row) : (chunks.flatMap Vector.toList).length = 17 * chunks.length := by
  induction chunks with
  | nil => rfl
  | cons chunk chunks ih =>
    rw [List.flatMap_cons, List.length_append, ih, Vector.length_toList, List.length_cons]
    omega

/-- DECBUF of the bytes of chunks, each decrypting to its character, gives the characters. -/
theorem decBuf_chunks {m : List Int} {chunks : List Row} {s : State} (hs : Ready s)
    (hkey : KeyOk s.sk.modulo s.sk.add s.sk.dim) (h : List.Forall₂ (DecryptsTo s.sk) m chunks) :
    ∃ u, decBuf (bytesOfWords (chunks.flatMap Vector.toList)) s = (.ok m, u) := by
  obtain ⟨u, hu⟩ := decChunks_chunks hs hkey h
  have hlen : (bytesOfWords (chunks.flatMap Vector.toList)).length = 68 * m.length := by
    rw [bytesOfWords_length, flatMap_toList_length, h.length_eq]
    omega
  refine ⟨u, ?_⟩
  rw [decBuf, if_neg (by omega), wordsOfBytes_bytesOfWords, hlen, Nat.mul_div_cancel_left _ (by decide), hu]

/-! ## The string round trip (R552) -/

/-- A chunk of a character that is not one of the two ends decrypts to it. -/
theorem decryptsTo_of_chunkOf {sk : SecretKey} {pk : PublicKey} (hkeys : KeyPair sk pk) {v : Int} {chunk : Row}
    (hv : IsScalar v ∧ v ≠ 0 ∧ v ≠ 0x10FFFF) (h : ChunkOf pk v chunk) : DecryptsTo sk v chunk := by
  obtain ⟨hshape, e, hd⟩ := hkeys
  obtain ⟨hscalar, h0, htop⟩ := hv
  obtain ⟨js, hjs, rfl⟩ := h
  exact ⟨hscalar, decScalar_encChunk_of_inner hshape hd hjs hscalar h0 htop⟩

/-- Settles O56: ENCSTR gives a chunk for each character, each decrypts to its character, and DECBUF gathers them. -/
theorem encryptedStringDecryptsToItself : Obligations.EncryptedStringDecryptsToItself := by
  intro m s hs hkeys hm
  have ⟨hshape, e, hd⟩ := hkeys
  obtain ⟨chunks, t, henc, hchunks, ht, hsk⟩ := encStr_chunks hs (keyOk_of_derived hshape hd) fun v hv => (hm v hv).1
  have hdec : List.Forall₂ (DecryptsTo t.sk) m chunks :=
    ((List.forall₂_and_left _ _).2 ⟨hm, hchunks⟩).imp fun _ _ ⟨hv, hchunk⟩ =>
      hsk ▸ decryptsTo_of_chunkOf hkeys hv hchunk
  obtain ⟨u, hu⟩ := decBuf_chunks ht (hsk ▸ keyOk_of_shape hshape) hdec
  exact ⟨_, t, u, henc, by rw [flatMap_toList_length, hchunks.length_eq], hu⟩

end Sys2Proof.Machine
end

section
/-! Proofs of the statements about command words and the buffers of the host's operations (30_encoding.md). -/

namespace Sys2Proof

/-! ## Which words are commands, and which are illegal (R304, R305, R306) -/

/-- Settles O1: the decoder reads back the three fields of the command word. -/
theorem decodeOfEncodeIsTheCommand : Obligations.DecodeOfEncodeIsTheCommand := fun _ => decode_encode

theorem withoutIndex_eq_command_iff {idx : Nat} {i j : Instr} : withoutIndex idx j = .command i ↔ j = i ∧ idx = 0 := by
  by_cases h : idx = 0 <;> simp [withoutIndex, h]

theorem exists_withoutIndex_eq_illegal_iff {idx : Nat} {j : Instr} :
    (∃ why, withoutIndex idx j = .illegal why) ↔ idx ≠ 0 := by
  by_cases h : idx = 0 <;> simp [withoutIndex, h]

/-- The table of R304 has one row for each command: its OP, and its index or 0. -/
theorem decodeOp_eq_command {op idx : Nat} {i : Instr} (h : decodeOp op idx = .command i) :
    op = i.opcode ∧ idx = i.index?.getD 0 := by
  match op with
  | 0 | 1 | 2 | 3 | 4 | 5 =>
    obtain ⟨rfl, rfl⟩ := withoutIndex_eq_command_iff.1 h
    exact ⟨rfl, rfl⟩
  | 6 | 7 | 8 | 9 =>
    obtain rfl := Decoded.command.inj h
    exact ⟨rfl, rfl⟩
  | _ + 10 => cases h

theorem exists_decodeOp_eq_illegal_iff {op idx : Nat} :
    (∃ why, decodeOp op idx = .illegal why) ↔ 0x0A ≤ op ∨ (op ≤ 0x05 ∧ idx ≠ 0) := by
  match op with
  | 0 | 1 | 2 | 3 | 4 | 5 => simp [decodeOp, exists_withoutIndex_eq_illegal_iff]
  | 6 | 7 | 8 | 9 => simp [decodeOp]
  | n + 10 => simp [decodeOp]

/-- The commands without an index stand at index 0, which fits IDX. -/
theorem wellFormed_of_index_lt {i : Instr} (h : i.index?.getD 0 < 65536) : i.wellFormed = true := by
  cases i with
  | nop | modred | skgen | pkgen | encchar | decchunk => rfl
  | rdsk idx | wrsk idx | rdpk idx | wrpk idx => exact decide_eq_true h

/-- A word with RSV = 0 is the command word of its OP and IDX. -/
theorem commandWord_fields {w : Word} (h : rsvField w = 0) : commandWord (opField w) (idxField w) = w := by
  have hw := toNat_eq_fields w
  exact BitVec.eq_of_toNat_eq (by rw [commandWord_toNat (opField_lt w) (idxField_lt w)]; omega)

/-- R305 looks at RSV before OP and IDX. -/
theorem decode_of_rsv_ne {w : Word} (h : rsvField w ≠ 0) : decode w = .illegal .reservedNonzero := if_pos h

theorem rsvField_eq_zero_of_decode {w : Word} {i : Instr} (h : decode w = .command i) : rsvField w = 0 := by
  by_contra hrsv
  rw [decode_of_rsv_ne hrsv] at h
  cases h

/-- Settles O2: RSV is 0, and OP and IDX are those of the command, so the word is the one made of them. -/
theorem legalWordIsTheEncodingOfItsCommand : Obligations.LegalWordIsTheEncodingOfItsCommand := by
  intro w i h
  have hrsv := rsvField_eq_zero_of_decode h
  obtain ⟨hop, hidx⟩ := decodeOp_eq_command ((decode_of_rsv hrsv).symm.trans h)
  exact ⟨wellFormed_of_index_lt (hidx ▸ idxField_lt w), by rw [encode, ← hop, ← hidx, commandWord_fields hrsv]⟩

theorem exists_decode_eq_illegal_iff {w : Word} :
    (∃ why, decode w = .illegal why) ↔
      rsvField w ≠ 0 ∨ 0x0A ≤ opField w ∨ (opField w ≤ 0x05 ∧ idxField w ≠ 0) := by
  by_cases hrsv : rsvField w = 0
  · rw [decode_of_rsv hrsv, exists_decodeOp_eq_illegal_iff]
    simp [hrsv]
  · simp [decode_of_rsv_ne hrsv, hrsv]

/-- Settles O4: each word is the command word of a well-formed command. -/
theorem specWordsDecodeAsListed : Obligations.SpecWordsDecodeAsListed :=
  ⟨decode_encode (i := .nop) rfl, decode_encode (i := .modred) rfl, decode_encode (i := .skgen) rfl,
    decode_encode (i := .pkgen) rfl, decode_encode (i := .encchar) rfl, decode_encode (i := .decchunk) rfl,
    decode_encode (i := .rdsk 16) rfl, decode_encode (i := .wrsk 17) rfl, decode_encode (i := .rdpk 2890) rfl,
    decode_encode (i := .wrpk 2892) rfl⟩

end Sys2Proof

namespace Sys2Proof.Machine

open Sys2Proof.Safety

theorem completeCommand_of_illegal {s : State} {why : Illegal} (h : decode s.cur = .illegal why) :
    completeCommand s = raiseCmdError .illegal s := by
  rw [completeCommand, h]

/-- Settles O3: the fields of an illegal word as parts of its number, its error completion, and the word of NOP. -/
theorem illegalWordsRaiseErrIllegal : Obligations.IllegalWordsRaiseErrIllegal := by
  refine ⟨fun w => ?_, fun s why => completeCommand_of_illegal, decode_encode (i := .nop) rfl⟩
  rw [exists_decode_eq_illegal_iff, rsvField_eq, opField_eq, idxField_eq, or_left_comm]

/-! ## Buffers that issue nothing (R321, R322, R323) -/

theorem decBuf_of_wrong_length {bytes : List Byte} (s : State) (h : bytes.length % 68 ≠ 0) :
    decBuf bytes s = (.error .length, s) := if_pos h

theorem loadSk_of_wrong_length {bytes : List Byte} (s : State) (h : bytes.length ≠ 76) :
    loadSk bytes s = (.error .length, s) := if_neg h

theorem loadPk_of_wrong_length {bytes : List Byte} (s : State) (h : bytes.length ≠ 11572) :
    loadPk bytes s = (.error .length, s) := if_neg h

/-! ## A chunk that fails ends DECBUF (R320, R322) -/

/-- EXEC leaves a ready block ready, whether the command succeeds or fails. -/
theorem hostExec_keeps_ready {w : Word} {s t : State} {r : Except HostError Unit} (hs : Ready s)
    (h : hostExec w s = (r, t)) : Ready t := by
  obtain ⟨u, -, hru, hbu, hexec⟩ := hostExec_ready w hs.1 hs.2
  have hstate : (hostExec w s).2 = u := by rw [hexec]; split <;> rfl
  obtain rfl : t = u := by rw [← hstate, h]
  exact ⟨hru, hbu⟩

/-- DECBUF of a whole number of chunks takes them one by one. -/
theorem decBuf_bytesOfWords {ws : List Word} {n : Nat} (h : ws.length = 17 * n) (s : State) :
    decBuf (bytesOfWords ws) s = decChunks n ws s := by
  have hlen : (bytesOfWords ws).length = 68 * n := by rw [bytesOfWords_length]; omega
  rw [decBuf, if_neg (by omega), wordsOfBytes_bytesOfWords, hlen, Nat.mul_div_cancel_left _ (by decide)]

/-- R322: the chunks after one that fails are not issued. -/
theorem decChunks_of_exec_error {s u : State} {chunk : Row} {err : HostError} (hs : Ready s)
    (h : hostExec (encode .decchunk) { s with arg := chunk } = (.error err, u)) (n : Nat) (rest : List Word) :
    decChunks (n + 1) (chunk.toList ++ rest) s = (.error err, u) := by
  rw [decChunks, List.take_left' (by simp), writeArgs_row hs, h]

/-- A chunk whose EXEC succeeds puts the character in RES[0] before those of the chunks after it. -/
theorem decChunks_of_exec_ok {s t : State} {chunk : Row} (hs : Ready s)
    (h : hostExec (encode .decchunk) { s with arg := chunk } = (.ok (), t)) (n : Nat) (rest : List Word) :
    decChunks (n + 1) (chunk.toList ++ rest) s =
      ((decChunks n rest t).1.map (s32 t.res[0] :: ·), (decChunks n rest t).2) := by
  have ht : Ready t := hostExec_keeps_ready (s := { s with arg := chunk }) hs h
  rw [decChunks, List.take_left' (by simp), List.drop_left' (by simp), writeArgs_row hs, h]
  simp only [memRead_res (show 0 < 17 by decide) ht.1 ht.2]
  rcases decChunks n rest t with ⟨_ | _, u⟩ <;> rfl

/-- Each chunk ahead leaves a ready block for the next, so the failing one is reached in the state they leave. -/
theorem decChunks_append_of_exec_error {ahead : List Row} {s t u : State} {m : List Int} {chunk : Row} {err : HostError}
    (hs : Ready s) (hahead : decChunks ahead.length (ahead.flatMap Vector.toList) s = (.ok m, t))
    (hexec : hostExec (encode .decchunk) { t with arg := chunk } = (.error err, u)) (n : Nat) (rest : List Word) :
    decChunks (ahead.length + (n + 1)) (ahead.flatMap Vector.toList ++ (chunk.toList ++ rest)) s = (.error err, u) := by
  induction ahead generalizing s m with
  | nil =>
    obtain ⟨-, rfl⟩ := Prod.mk.inj hahead
    rw [List.length_nil, Nat.zero_add]
    exact decChunks_of_exec_error hs hexec n rest
  | cons first ahead ih =>
    rw [List.length_cons, List.flatMap_cons] at hahead
    rw [List.length_cons, List.flatMap_cons, List.append_assoc, Nat.add_right_comm]
    match hfirst : hostExec (encode .decchunk) { s with arg := first } with
    | (.error e, v) =>
      rw [decChunks_of_exec_error hs hfirst] at hahead
      cases hahead
    | (.ok (), v) =>
      have hv : Ready v := hostExec_keeps_ready (s := { s with arg := first }) hs hfirst
      rw [decChunks_of_exec_ok hs hfirst] at hahead ⊢
      match htail : decChunks ahead.length (ahead.flatMap Vector.toList) v with
      | (.error e, t') =>
        rw [htail] at hahead
        cases hahead
      | (.ok m', t') =>
        rw [htail] at hahead
        obtain ⟨-, rfl⟩ := Prod.mk.inj hahead
        rw [ih hv htail]
        rfl

/-- A whole number of chunks of words, cut into rows. -/
theorem exists_rows {n : Nat} {ws : List Word} (h : ws.length = 17 * n) :
    ∃ rows : List Row, ws = rows.flatMap Vector.toList ∧ rows.length = n := by
  induction n generalizing ws with
  | zero => exact ⟨[], List.length_eq_zero_iff.1 h, rfl⟩
  | succ n ih =>
    obtain ⟨rows, hrows, hlen⟩ := ih (ws := ws.drop 17) (by rw [List.length_drop]; omega)
    refine ⟨⟨(ws.take 17).toArray, by simp; omega⟩ :: rows, ?_, by rw [List.length_cons, hlen]⟩
    rw [List.flatMap_cons, ← hrows]
    exact (List.take_append_drop 17 ws).symm

/-- Settles O57: a wrong length is found first; the chunks that decrypt pass, and the first that fails ends DECBUF. -/
theorem wrongLengthBuffersIssueNothing : Obligations.WrongLengthBuffersIssueNothing := by
  refine ⟨fun s bytes =>
    ⟨decBuf_of_wrong_length s, loadSk_of_wrong_length s, loadPk_of_wrong_length s, rfl, rfl⟩, ?_⟩
  intro s t u ahead rest m chunk err hs hahead hrest hexec
  have hmod : ahead.length % 17 = 0 := by
    by_contra hne
    rw [decBuf_of_wrong_length s (by rw [bytesOfWords_length]; omega)] at hahead
    cases hahead
  obtain ⟨rows, rfl, hlen⟩ := exists_rows (ws := ahead) (n := ahead.length / 17) (by omega)
  rw [decBuf_bytesOfWords (flatMap_toList_length rows)] at hahead
  rw [List.append_assoc, decBuf_bytesOfWords (n := rows.length + (rest.length / 17 + 1))]
  · exact decChunks_append_of_exec_error hs hahead hexec _ rest
  · simp only [List.length_append, flatMap_toList_length, Vector.length_toList]
    omega

end Sys2Proof.Machine
end

section
/-! Proofs of the statements about arithmetic, MODRED and the key check (40_modular_reduction.md). -/

namespace Sys2Proof

/-! ## Wrapping at each step or once (R401) -/

/-- A word added to a wrapped value is the wrapped sum. -/
theorem wrap32_s32_add (w : Word) (x : Int) : wrap32 (s32 w + x) = w + wrap32 x := by rw [wrap32_add, wrap32_s32]

theorem wrap32_s32_mul (w : Word) (x : Int) : wrap32 (s32 w * x) = w * wrap32 x := by rw [wrap32_mul, wrap32_s32]

/-- Wrapping a summand first changes nothing in the wrapped sum. -/
theorem wrap32_add_s32_wrap32 (x y : Int) : wrap32 (x + s32 (wrap32 y)) = wrap32 (x + y) := by
  rw [wrap32_add, wrap32_s32, ← wrap32_add]

/-- Wrapping each partial sum adds the wrapped sum to the first word. -/
theorem foldl_wrap32_add (xs : List Int) (w : Word) :
    xs.foldl (fun acc x => wrap32 (s32 acc + x)) w = w + wrap32 xs.sum := by
  induction xs generalizing w with
  | nil => simp
  | cons x xs ih => rw [List.foldl_cons, ih, wrap32_s32_add, List.sum_cons, wrap32_add, BitVec.add_assoc]

/-- Wrapping each term and each partial sum gives the sum wrapped once. -/
theorem foldl_wrap32_add_s32_wrap32 {ι : Type} (f : ι → Int) (is : List ι) :
    is.foldl (fun acc i => wrap32 (s32 acc + s32 (wrap32 (f i)))) 0 = wrap32 (is.map f).sum := by
  simp only [wrap32_add_s32_wrap32]
  calc is.foldl (fun acc i => wrap32 (s32 acc + f i)) 0
      = (is.map f).foldl (fun acc x => wrap32 (s32 acc + x)) 0 := by rw [List.foldl_map]
    _ = wrap32 (is.map f).sum := by rw [foldl_wrap32_add]; exact BitVec.zero_add _

theorem foldl_wrap32_mul (xs : List Int) (w : Word) :
    xs.foldl (fun acc x => wrap32 (s32 acc * x)) w = w * wrap32 xs.prod := by
  induction xs generalizing w with
  | nil => exact (BitVec.mul_one w).symm
  | cons x xs ih => rw [List.foldl_cons, ih, wrap32_s32_mul, List.prod_cons, wrap32_mul, BitVec.mul_assoc]

/-- Settles O18: the order plays no part in the sum and the product over the integers. -/
theorem wrappingOnceEqualsWrappingEachTime : Obligations.WrappingOnceEqualsWrappingEachTime := by
  intro xs ys h
  rw [foldl_wrap32_add, foldl_wrap32_mul, h.sum_eq, h.prod_eq]
  exact ⟨BitVec.zero_add _, BitVec.one_mul _⟩

/-! ## Floored quotients (R403, R409) -/

/-- The quotient rounded down is the floor of the rational quotient. -/
theorem floor_div_eq_fdiv (a : Int) {b : Int} (hb : 0 < b) : ⌊(a : ℚ) / (b : ℚ)⌋ = Int.fdiv a b := by
  obtain ⟨n, rfl⟩ := Int.eq_ofNat_of_zero_le hb.le
  rw [Int.fdiv_eq_ediv_of_nonneg _ hb.le, ← Rat.floor_intCast_div_natCast, Int.cast_natCast]

/-! ## Illegal words with the OP of a command without index (R301, R306) -/

/-- The only legal word whose OP is at most 0x05 is that OP, zero-extended. -/
theorem exists_decode_eq_illegal_of_op {w : Word} (hop : opField w ≤ 0x05) (hw : w.toNat ≠ opField w) :
    ∃ why, decode w = .illegal why := by
  have hfields := toNat_eq_fields w
  rw [exists_decode_eq_illegal_iff]
  omega

end Sys2Proof

namespace Sys2Proof.Machine

open Sys2Proof.Safety

/-! ## The residue (R403, R404) -/

/-- Settles O16: the floor of the rational quotient is the model's, and the rest is what a residue is. -/
theorem modulusIsTheCanonicalResidue : Obligations.ModulusIsTheCanonicalResidue := by
  intro num m hm
  have hlow := modulus_nonneg num hm
  have hhigh := modulus_lt num hm
  refine ⟨?_, hlow, hhigh, dvd_sub_modulus num hm, fun hword => s32_wrap32_of_range ?_ ?_⟩
  · rw [floor_div_eq_fdiv num hm, modulus]
  · omega
  · omega

/-- Settles O17: a truncated remainder plus `m` is positive and congruent to `num`. -/
theorem shiftAndReduceAgainIsModulus : Obligations.ShiftAndReduceAgainIsModulus := by
  intro num m hm
  have hpos : 0 ≤ Int.tmod num m + m := by
    have := Int.lt_tmod_of_pos num hm
    omega
  have hdvd : m ∣ (Int.tmod num m + m) - num := ⟨1 - Int.tdiv num m, by rw [Int.tmod_def]; ring⟩
  rw [Int.tmod_eq_emod_of_nonneg hpos, ← modulus_eq_emod _ hm, modulus_eq_of_dvd hm hdvd]

/-! ## The dot product and the row sum (R405, R406) -/

/-- Settles O19: the sum over the sixteen indices is that of the list of their products. -/
theorem dotProductSumsSixteenProducts : Obligations.DotProductSumsSixteenProducts := by
  intro K V
  refine ⟨s32_wrap32 _, ?_, fun v => dot16_congr K fun c => Vector.getElem_set_ne _ _ c.isLt.ne'⟩
  rw [foldl_wrap32_add_s32_wrap32, ← Fin.sum_univ_def, dot16]

/-- Settles O20: a word of the row sum is the wrapped sum of the two signed words. -/
theorem rowSumAddsAllSeventeenWords : Obligations.RowSumAddsAllSeventeenWords := by
  intro U V c
  refine ⟨getElem_rowadd U V c, ?_⟩
  rw [getElem_rowadd, ← s32_wrap32, wrap32_add, wrap32_s32, wrap32_s32]

/-! ## Rounding (R409) -/

/-- Settles O21: `(2·value + add) ÷ (2·add)` is `value ÷ add + 1/2`, its dividend below `2^31 · (2·add)`. -/
theorem roundHalfUpIsNearestTiesUp : Obligations.RoundHalfUpIsNearestTiesUp := by
  intro value add h₀ h₁ hadd
  have hquot : (value : ℚ) / (add : ℚ) + 1 / 2 = ((2 * value + add : Int) : ℚ) / ((2 * add : Int) : ℚ) := by
    have hne : (add : ℚ) ≠ 0 := by exact_mod_cast hadd.ne'
    push_cast
    field_simp
  have hadd₂ : 0 < 2 * add := by omega
  have hround : roundHalfUp value add = (2 * value + add) / (2 * add) := Int.fdiv_eq_ediv_of_nonneg _ hadd₂.le
  refine ⟨by rw [hquot, floor_div_eq_fdiv _ hadd₂, roundHalfUp], ?_, ?_⟩ <;> rw [hround]
  · exact Int.ediv_nonneg (by omega) hadd₂.le
  · exact Int.ediv_lt_of_lt_mul hadd₂ (by omega)

/-! ## MODRED (R420) -/

/-- Settles O24: the two signs of ARG[1], the residue being the word's `modulus`. -/
theorem modredReducesArgZeroModuloArgOne : Obligations.ModredReducesArgZeroModuloArgOne := by
  refine ⟨decode_encode (i := .modred) rfl, fun s hop hne => ?_, fun s => execModred_param, fun s hpos => ?_,
    fun s h₀ h₁ => ?_⟩
  · have hword : s.cur.toNat ≠ 1 := fun h => hne (BitVec.eq_of_toNat_eq h)
    rw [← opField_eq] at hop
    obtain ⟨why, hwhy⟩ := exists_decode_eq_illegal_of_op (w := s.cur) (by omega) (by omega)
    exact completeCommand_of_illegal hwhy
  · have hfit := s32_wrap32_modulus (s32 s.arg[0]) hpos
    refine ⟨_, ?_, ?_, ?_, execModred_ok hpos⟩ <;> rw [hfit]
    · exact modulus_nonneg _ hpos
    · exact modulus_lt _ hpos
    · exact dvd_sub_modulus _ hpos
  · refine ⟨_, execModred_ok (by rw [h₁]; decide), ?_⟩
    rw [h₀, h₁]
    exact Vector.getElem_set_self _

/-! ## The key check (R407) -/

/-- A modulus and entries in their ranges fit their words, and make a key of R451's shape. -/
theorem skShape_secretKeyOf {q : Int} {k : Vector Int 16} (hq : 11120640 ≤ q ∧ q < 111206400)
    (hk : ∀ i : Fin 16, -4096 ≤ k[i] ∧ k[i] < 4096) : SkShape (secretKeyOf q k) := by
  have hmod : s32 (secretKeyOf q k).modulo = q := s32_wrap32_of_range (by omega) (by omega)
  have hkey (i : Fin 16) : s32 (secretKeyOf q k).key[i] = k[i] := by
    have hi := hk i
    rw [secretKeyOf, Fin.getElem_fin, Vector.getElem_ofFn]
    exact s32_wrap32_of_range (x := k[i]) (by omega) (by omega)
  have hadd : s32 (secretKeyOf q k).add = Int.tdiv q 1114111 := by
    have hdiv : Int.tdiv q 1114111 = q / 1114111 := Int.tdiv_eq_ediv_of_nonneg (by omega)
    exact s32_wrap32_of_range (x := Int.tdiv q 1114111) (by omega) (by omega)
  exact ⟨fun i => by rw [hkey]; exact hk i, by rw [hmod]; exact hq, by rw [hadd, hmod],
    s32_wrap32_of_range (by decide) (by decide)⟩

/-- Whatever the random source, SKGEN draws each number from its range (R450, R451). -/
theorem skShape_freshSecretKey (src : Nat → Nat) (n : Nat) : SkShape (freshSecretKey src n) := by
  refine skShape_secretKeyOf (draw_range _ (by decide)) fun i => ?_
  rw [Fin.getElem_fin, Vector.getElem_ofFn]
  exact draw_range _ (by decide)

/-- Settles O28: each of the three commands tests the key first, and SKGEN's key has the shape that passes. -/
theorem keyCheckFailureRaisesErrParam : Obligations.KeyCheckFailureRaisesErrParam := by
  refine ⟨fun _ _ _ => Iff.rfl, fun s t ht => ?_, fun s h => ⟨execPkgenFrom_param _ h, execDecchunk_param h⟩,
    fun s => execEnccharFrom_param _⟩
  obtain rfl := Host.Outcome.next.inj ht
  exact keyOk_of_shape (skShape_freshSecretKey Config.drawSource s.fresh)

end Sys2Proof.Machine
end

section
/-! Proofs of the statements about key generation: the noise, SKGEN and PKGEN (41_key_generation.md). -/

namespace Sys2Proof.Machine

open Sys2Proof.Safety

/-! ## The noise (R461) -/

theorem noise_of_pos {fuzz : Int} (h : 1 ≤ fuzz) (raw : Nat) : noise raw fuzz = draw raw (-fuzz) fuzz := if_pos h

theorem noise_zero (raw : Nat) : noise raw 0 = 0 := rfl

/-- The fuzz of a positive `add` is never negative. -/
theorem fuzz_nonneg {add : Int} (h : 0 < add) : 0 ≤ Int.tdiv add 10 := Int.tdiv_nonneg h.le (by decide)

/-- Every draw of the noise is in R461's range. -/
theorem noiseIn_noise (raw : Nat) (fuzz : Int) : NoiseIn fuzz (noise raw fuzz) := by
  refine ⟨fun h => ?_, ?_⟩
  · rw [noise_of_pos h]
    exact draw_range raw (by omega)
  · rintro rfl
    exact noise_zero raw

/-- A noise `e` of R461's range is the one drawn from the raw number `e + fuzz`. -/
theorem noise_of_noiseIn {fuzz e : Int} (hfuzz : 0 ≤ fuzz) (h : NoiseIn fuzz e) : noise (e + fuzz).toNat fuzz = e := by
  obtain ⟨hpos, hzero⟩ := h
  rcases hfuzz.eq_or_lt with rfl | hlt
  · rw [noise_zero, hzero rfl]
  · obtain ⟨h₁, h₂⟩ := hpos hlt
    rw [noise_of_pos hlt, ← sub_neg_eq_add]
    exact draw_of_range h₁ h₂

/-- Settles O22: a draw stays in its range and reaches each value of it; a tenth of a positive `add` is not negative. -/
theorem noiseTakesExactlyTheValuesOfItsRange : Obligations.NoiseTakesExactlyTheValuesOfItsRange := by
  refine fun fuzz => ⟨fun h e => ⟨?_, fun he => ?_⟩, ?_, fun _ _ _ ⟨_, hadd, _⟩ => fuzz_nonneg hadd⟩
  · rintro ⟨raw, rfl⟩
    exact (noiseIn_noise raw fuzz).1 h
  · exact ⟨_, noise_of_noiseIn (by omega) ⟨fun _ => he, by omega⟩⟩
  · rintro rfl
    exact noise_zero

/-! ## SKGEN (R450, R451) -/

/-- Settles O25: the key SKGEN draws has the shape, and the range of `add` and KEYOK follow from it. -/
theorem skgenMakesAKeyOfTheStatedShape : Obligations.SkgenMakesAKeyOfTheStatedShape := by
  refine ⟨fun src s => ?_, fun _ => rfl⟩
  have hshape := skShape_freshSecretKey src s.fresh
  obtain ⟨hadd₁, hadd₂, -⟩ := add_range_of_shape hshape
  exact ⟨_, _, rfl, hshape, hadd₁, hadd₂, keyOk_of_shape hshape⟩

/-! ## One row of the public key (R460, R463) -/

/-- `row` is a row PKGEN derives from `sk` under the noise `e`: R463's condition on one row of `DerivedWith`. -/
def RowDerivedWith (sk : SecretKey) (row : Row) (e : Int) : Prop :=
  (∀ c : Fin 16, -4096 ≤ s32 row[c.castSucc] ∧ s32 row[c.castSucc] < 4096) ∧
    NoiseIn (Int.tdiv (s32 sk.add) 10) e ∧
    s32 row[16] = modulus (s32 (wrap32 (s32 (dot16 sk.key row) + e))) (s32 sk.modulo)

theorem derivedWith_iff {sk : SecretKey} {pk : PublicKey} {e : Fin 170 → Int} :
    DerivedWith sk pk e ↔
      (pk.modulo = sk.modulo ∧ pk.add = sk.add ∧ pk.dim = sk.dim) ∧ ∀ r : Fin 170, RowDerivedWith sk (pk.row r) (e r) :=
  Iff.rfl

/-- A row is its sixteen coefficients and its last word. -/
theorem row_ext {U V : Row} (hcoeff : ∀ c : Fin 16, U[c.castSucc] = V[c.castSucc]) (hlast : U[16] = V[16]) : U = V := by
  refine Vector.ext fun i hi => ?_
  rcases Nat.lt_succ_iff_lt_or_eq.1 hi with h | rfl
  · exact hcoeff ⟨i, h⟩
  · exact hlast

theorem getElem_publicRow_castSucc (sk : SecretKey) (a : Vector Int 16) (e : Int) (c : Fin 16) :
    (publicRow sk a e)[c.castSucc] = wrap32 a[c] := by
  have hc : 16 ≠ c.val := c.isLt.ne'
  simp [publicRow, Vector.getElem_set_ne, hc]

theorem dot16_set_last (K : Vector Word 16) (V : Row) (v : Word) : dot16 K (V.set 16 v) = dot16 K V := by
  obtain ⟨-, -, hset⟩ := dotProductSumsSixteenProducts K V
  exact hset v

/-- The last word of a row is made from the dot product of the row itself, since word 16 takes no part in that. -/
theorem getElem_publicRow_last (sk : SecretKey) (a : Vector Int 16) (e : Int) :
    (publicRow sk a e)[16] =
      wrap32 (modulus (s32 (wrap32 (s32 (dot16 sk.key (publicRow sk a e)) + e))) (s32 sk.modulo)) := by
  simp only [publicRow, Vector.getElem_set_self, dot16_set_last]

/-- Coefficients and a noise of their ranges make a derived row. -/
theorem rowDerivedWith_publicRow {sk : SecretKey} {a : Vector Int 16} {e : Int} (hq : 0 < s32 sk.modulo)
    (ha : ∀ c : Fin 16, -4096 ≤ a[c] ∧ a[c] < 4096) (he : NoiseIn (Int.tdiv (s32 sk.add) 10) e) :
    RowDerivedWith sk (publicRow sk a e) e := by
  refine ⟨fun c => ?_, he, ?_⟩
  · have hc := ha c
    rw [getElem_publicRow_castSucc, s32_wrap32_of_range (by omega) (by omega)]
    exact hc
  · rw [getElem_publicRow_last, s32_wrap32_modulus _ hq]

/-- A derived row is the row of its coefficients and its noise. -/
theorem publicRow_of_rowDerivedWith {sk : SecretKey} {row : Row} {e : Int} (h : RowDerivedWith sk row e) :
    publicRow sk (Vector.ofFn fun c : Fin 16 => s32 row[c.castSucc]) e = row := by
  obtain ⟨-, -, hlast⟩ := h
  have hcoeff (c : Fin 16) :
      (publicRow sk (Vector.ofFn fun c : Fin 16 => s32 row[c.castSucc]) e)[c.castSucc] = row[c.castSucc] := by
    rw [getElem_publicRow_castSucc, Fin.getElem_fin, Vector.getElem_ofFn]
    exact wrap32_s32 _
  refine row_ext hcoeff ?_
  rw [getElem_publicRow_last, dot16_congr sk.key hcoeff, ← hlast, wrap32_s32]

/-! ## The public key PKGEN draws (R460, R463) -/

/-- Whatever the random source, PKGEN draws the numbers of a row from their ranges. -/
theorem rowDerivedWith_freshRow (src : Nat → Nat) {sk : SecretKey} (hq : 0 < s32 sk.modulo) (n : Nat) :
    RowDerivedWith sk (freshRow src sk n) (noise (src (n + 16)) (fuzzOf sk)) := by
  refine rowDerivedWith_publicRow hq (fun c => ?_) (noiseIn_noise _ _)
  rw [Fin.getElem_fin, Vector.getElem_ofFn]
  exact draw_range _ (by decide)

theorem freshPublicKey_row (src : Nat → Nat) (sk : SecretKey) (n : Nat) (r : Fin 170) :
    (freshPublicKey src sk n).row r = freshRow src sk (n + 17 * r) := by
  rw [PublicKey.row_eq _ r.isLt, freshPublicKey, Vector.getElem_ofFn]

/-- The noise of row `r` that PKGEN draws from the raw numbers `src n`, `src (n+1)`, ... -/
def freshNoise (src : Nat → Nat) (sk : SecretKey) (n : Nat) (r : Fin 170) : Int :=
  noise (src (n + 17 * r + 16)) (fuzzOf sk)

/-- Whatever the random source, the public key PKGEN draws is derived from the secret key. -/
theorem derivedWith_freshPublicKey (src : Nat → Nat) {sk : SecretKey} (hq : 0 < s32 sk.modulo) (n : Nat) :
    DerivedWith sk (freshPublicKey src sk n) (freshNoise src sk n) := by
  refine derivedWith_iff.2 ⟨⟨rfl, rfl, rfl⟩, fun r => ?_⟩
  rw [freshPublicKey_row]
  exact rowDerivedWith_freshRow src hq _

/-! ## Every derived public key can be drawn (R112, R460) -/

/-- The raw numbers from which PKGEN draws a row: its coefficients, then the noise `e` of the fuzz `fuzz` (R460). -/
def rowRaws (row : Row) (fuzz e : Int) (c : Nat) : Nat :=
  if c < 16 then (s32 (row.getD c 0) - Config.keyLo).toNat else (e + fuzz).toNat

/-- A derived row is what PKGEN draws from the row's own raw numbers. -/
theorem freshRow_of_rowRaws {src : Nat → Nat} {sk : SecretKey} {row : Row} {e : Int} {n : Nat}
    (hfuzz : 0 ≤ fuzzOf sk) (h : RowDerivedWith sk row e)
    (hsrc : ∀ c < 17, src (n + c) = rowRaws row (fuzzOf sk) e c) : freshRow src sk n = row := by
  have ⟨hcoeff, hnoise, _⟩ := h
  have hdraw (c : Fin 16) : draw (src (n + c)) Config.keyLo Config.keyHi = s32 row[c.castSucc] := by
    have hget : row.getD c 0 = row[c.castSucc] := by
      simp [Vector.getD, Array.getD, Nat.lt_succ_of_lt c.isLt]
    rw [hsrc c (by omega), rowRaws, if_pos c.isLt, hget]
    exact draw_of_range (hcoeff c).1 (hcoeff c).2
  have he : noise (src (n + 16)) (fuzzOf sk) = e := by
    rw [hsrc 16 (by decide)]
    exact noise_of_noiseIn hfuzz hnoise
  simp only [freshRow, hdraw, he]
  exact publicRow_of_rowDerivedWith h

/-- The raw numbers from which PKGEN draws the key `pk` under the noises `e`: seventeen for each row (R460). -/
def publicKeyRaws (sk : SecretKey) (pk : PublicKey) (e : Fin 170 → Int) (i : Nat) : Nat :=
  rowRaws (pk.row (i / 17)) (fuzzOf sk) (e (Fin.ofNat 170 (i / 17))) (i % 17)

theorem publicKeyRaws_row (sk : SecretKey) (pk : PublicKey) (e : Fin 170 → Int) (r : Fin 170) {c : Nat} (hc : c < 17) :
    publicKeyRaws sk pk e (17 * r + c) = rowRaws (pk.row r) (fuzzOf sk) (e r) c := by
  have hdiv : (17 * r.val + c) / 17 = r := by omega
  have hmod : (17 * r.val + c) % 17 = c := by omega
  rw [publicKeyRaws, hdiv, hmod, Fin.ofNat_val_eq_self]

/-- A derived public key is what PKGEN draws from its own raw numbers. -/
theorem freshPublicKey_publicKeyRaws {sk : SecretKey} {pk : PublicKey} {e : Fin 170 → Int} (hfuzz : 0 ≤ fuzzOf sk)
    (h : DerivedWith sk pk e) (n : Nat) : freshPublicKey (sourceFrom n (publicKeyRaws sk pk e)) sk n = pk := by
  obtain ⟨⟨hmod, hadd, hdim⟩, hrows⟩ := derivedWith_iff.1 h
  have hrow (r : Fin 170) : freshRow (sourceFrom n (publicKeyRaws sk pk e)) sk (n + 17 * r) = pk.row r :=
    freshRow_of_rowRaws hfuzz (hrows r) fun c hc => by
      rw [Nat.add_assoc, sourceFrom_add, publicKeyRaws_row sk pk e r hc]
  have hvec : (Vector.ofFn fun r : Fin 170 => pk.row r) = pk.rows :=
    Vector.ext fun r hr => by rw [Vector.getElem_ofFn, PublicKey.row_eq pk hr]
  simp only [freshPublicKey, hrow, hvec, ← hmod, ← hadd, ← hdim]

/-- Settles O27: the key drawn is derived, and for a derived key the source is the one of its own raw numbers. -/
theorem pkgenDerivesEveryRow : Obligations.PkgenDerivesEveryRow := by
  refine ⟨fun src s hkey => ?_, fun s k e hkey hd => ?_, fun _ => rfl⟩ <;> have ⟨hq, hadd, _⟩ := hkey
  · exact ⟨_, _, _, execPkgenFrom_ok src hkey, derivedWith_freshPublicKey src hq s.fresh⟩
  · refine ⟨sourceFrom s.fresh (publicKeyRaws s.sk k e), s.fresh + 2890, ?_⟩
    rw [execPkgenFrom_ok _ hkey, freshPublicKey_publicKeyRaws (fuzz_nonneg hadd) hd]
    rfl

/-! ## Nothing wraps with a generated key (R462) -/

/-- The noise of a generated key is at most 9 in magnitude. -/
theorem abs_noise_le_nine {sk : SecretKey} {e : Int} (h : SkShape sk) (he : NoiseIn (Int.tdiv (s32 sk.add) 10) e) :
    |e| ≤ 9 := by
  obtain ⟨hadd₁, hadd₂, -⟩ := add_range_of_shape h
  have hle := noise_range h he
  rw [Int.tdiv_eq_ediv_of_nonneg (by omega)] at hle
  omega

/-- Settles O29: entries and coefficients at most 2^12 in magnitude bound the products, and a noise of at most 9 keeps
the sum far from 2^31. -/
theorem generatedKeyNeverWrapsInPkgen : Obligations.GeneratedKeyNeverWrapsInPkgen := by
  intro sk a e hshape ha he
  have hcoeff (c : Fin 16) : |s32 a[c.castSucc]| ≤ 4096 := by
    obtain ⟨hlow, hhigh⟩ := ha c
    exact abs_le.2 ⟨hlow, hhigh.le⟩
  have hproduct (i : Fin 16) : |s32 sk.key[i] * s32 a[i.castSucc]| ≤ 2 ^ 24 := by
    rw [abs_mul]
    exact mul_le_mul (abs_key_le hshape i) (hcoeff i) (abs_nonneg _) (by decide)
  obtain ⟨hexact, hdot⟩ := s32_dot16 (abs_key_le hshape) hcoeff (by decide)
  have hnoise := abs_noise_le_nine hshape he
  obtain ⟨hdot₁, hdot₂⟩ := abs_le.1 hdot
  obtain ⟨hnoise₁, hnoise₂⟩ := abs_le.1 hnoise
  have hq := (keyOk_of_shape hshape).1
  exact ⟨hproduct, hexact, hdot, hnoise, s32_wrap32_of_range (by omega) (by omega), modulus_nonneg _ hq,
    modulus_lt _ hq⟩

/-! ## SKGEN, then PKGEN (R451, R463) -/

/-- Settles O50: SKGEN's key passes PKGEN's check, and PKGEN leaves it in the SK file. -/
theorem keyGenerationMakesAKeyPair : Obligations.KeyGenerationMakesAKeyPair := by
  intro s
  have hshape := skShape_freshSecretKey Config.drawSource s.fresh
  have hkey := keyOk_of_shape hshape
  exact ⟨_, _, rfl, execPkgenFrom_ok _ hkey, hshape, _, derivedWith_freshPublicKey _ hkey.1 _⟩

end Sys2Proof.Machine
end

section
/-! Proofs of the statements about encryption (42_encryption.md): the chunk ENCCHAR leaves, and its way back through
DECCHUNK. -/

namespace Sys2Proof.Machine

open Sys2Proof.Safety

/-! ## The chunk under any key (R500, R501) -/

/-- `char_num` of a character read from a word is the product of the words. -/
theorem encodeScale_u32 (a b : Word) : encodeScale (u32 a) (s32 b) = a * b := by
  rw [encodeScale, wrap32_mul, wrap32_u32, wrap32_s32]

/-- The last word of a chunk is the residue of the wrapped sum of the `b` terms and `char_num`. -/
theorem s32_encChunk_last {pk : PublicKey} (hq : 0 < s32 pk.modulo) (a : Word) (js : List Nat) :
    s32 (encChunk pk (u32 a) js)[16] =
      modulus (s32 ((js.map fun j => (pk.row j)[16]).sum + a * pk.add)) (s32 pk.modulo) := by
  have hsum : (rowSum pk js)[16] = (js.map fun j => (pk.row j)[16]).sum := getElem_rowSum pk js 16
  rw [getElem_encChunk_last, s32_wrap32_modulus _ hq, wrap32_s32_add, wrap32_s32, encodeScale_u32, hsum]

/-- Settles O30: whatever the source draws is sampled, and the chunk over it has the coefficients and the residue. -/
theorem enccharSumsSampledRowsAndFoldsTheCharacter : Obligations.EnccharSumsSampledRowsAndFoldsTheCharacter := by
  refine ⟨fun src s hkey hv => ⟨drawRows src (s.fresh + 1) (drawCount src s.fresh), _, sampled_drawRows src _ _, ?_,
    getElem_encChunk_castSucc _ _ _, s32_encChunk_last hkey.1 _ _⟩, fun _ => rfl⟩
  rw [execEnccharFrom_ok src hkey hv, drawRows_length]
  rfl

/-! ## The chunk under a generated key (R503, R504) -/

/-- Up to four coefficients below 4096 sum to at most four times 4095. -/
theorem s32_chunk_coeff_le {sk : SecretKey} {pk : PublicKey} {e : Fin 170 → Int} {js : List Nat}
    (hd : DerivedWith sk pk e) (hjs : Sampled js) (v : Int) (c : Fin 16) :
    s32 (encChunk pk v js)[c.castSucc] ≤ 16380 := by
  have hcoeff (j : Nat) (hj : j ∈ js) :
      -4096 ≤ s32 (pk.row j)[c.castSucc] ∧ s32 (pk.row j)[c.castSucc] ≤ 4095 := by
    obtain ⟨hrow, -⟩ := hd.2 ⟨j, lt_of_sampled hjs hj⟩
    obtain ⟨hlow, hhigh⟩ := hrow c
    exact ⟨hlow, Int.le_sub_one_of_lt hhigh⟩
  rw [getElem_encChunk_castSucc]
  exact (s32_sum_map hjs.1.2 (by decide) (by decide) (by decide) hcoeff).2.2

/-- Settles O32: the ranges of the sampled coefficients and `b` terms, and of `char_num`, keep every sum in a word. -/
theorem generatedKeysNeverWrapInEncchar : Obligations.GeneratedKeysNeverWrapInEncchar := by
  rintro sk pk js v ⟨hshape, e, hd⟩ hjs hv
  obtain ⟨hmod, hadd, -⟩ := hd.1
  have hq := hshape.2.1
  have hlast := chunk_last_range hshape hd hjs hv
  obtain ⟨hsum, hsum₁, hsum₂⟩ := s32_rowSum_last hshape hd hjs
  obtain ⟨hscale, hv₁, hv₂⟩ := s32_encodeScale hshape hv
  rw [hmod, hadd]
  refine ⟨fun c => ?_, hsum, hsum₁, hsum₂, by omega, hv₂, hscale, s32_wrap32_of_range (by omega) (by omega), hlast⟩
  obtain ⟨hexact, hle⟩ := s32_chunk_coeff hd hjs v c
  exact ⟨hexact, (abs_le.1 hle).1, s32_chunk_coeff_le hd hjs v c⟩

/-- Settles O51: the last word is congruent to the `b` terms and `char_num`, and the `b` terms to the dot products and
the noise. -/
theorem chunkCarriesTheCharacterUnderTheNoise : Obligations.ChunkCarriesTheCharacterUnderTheNoise := by
  intro sk pk e js v hshape hd hjs hv
  refine ⟨fun c => (s32_chunk_coeff hd hjs v c).1, ?_⟩
  have hrows := dvd_sum_row_last hshape hd fun j => lt_of_sampled hjs
  have hlast := dvd_sub_modulus ((js.map fun j => s32 (pk.row j)[16]).sum + v * s32 sk.add) (keyOk_of_shape hshape).1
  rw [← s32_chunk_last hshape hd hjs hv] at hlast
  convert Int.dvd_sub hrows hlast using 1
  ring

/-! ## A character through ENCCHAR and DECCHUNK (R551, R552) -/

theorem u32_injective {u v : Word} (h : u32 u = u32 v) : u = v := by rw [← wrap32_u32 u, h, wrap32_u32]

/-- Settles O55: ENCCHAR leaves a chunk of the character, and a chunk of a character that is not one of the two ends
decrypts to it. -/
theorem encryptedCharacterDecryptsToItself : Obligations.EncryptedCharacterDecryptsToItself := by
  intro s hkeys hv h0 htop
  have ⟨hshape, e, hd⟩ := hkeys
  have hinner : u32 s.arg[0] ≠ 0 ∧ u32 s.arg[0] ≠ 0x10FFFF :=
    ⟨fun h => h0 (u32_injective (v := 0) h), fun h => htop (u32_injective (v := 0x10FFFF) h)⟩
  obtain ⟨chunk, f, hchunk, henc⟩ := exec_encchar_commit (keyOk_of_derived hshape hd) rfl hv
  obtain ⟨-, hdec⟩ := decryptsTo_of_chunkOf hkeys ⟨hv, hinner⟩ hchunk
  refine ⟨_, _, henc, rfl, execDecchunk_ok (keyOk_of_shape hshape) (by rw [hdec]; exact hv), rfl, ?_⟩
  rw [Vector.getElem_set_self, hdec, wrap32_u32]

end Sys2Proof.Machine
end

section
/-! Proofs of the statements about decryption (43_decryption.md): the residue DECCHUNK rounds, and where the round trip
of a character fails. -/

namespace Sys2Proof.Machine

open Sys2Proof.Safety

/-! ## DECCHUNK under any key that passes KEYOK (R550) -/

/-- The dot product is the sum of the products of the words. -/
theorem dot16_eq_sum_mul (K : Vector Word 16) (V : Row) : dot16 K V = ∑ i : Fin 16, K[i] * V[i.castSucc] := by
  rw [dot16, Fin.sum_univ_def, wrap32_sum, List.map_map, Fin.sum_univ_def]
  simp only [Function.comp_def, wrap32_mul, wrap32_s32]

/-- The value of a chunk is the residue of the difference of the words. -/
theorem decValue_eq_emod {sk : SecretKey} (hq : 0 < s32 sk.modulo) (chunk : Row) :
    decValue sk chunk = s32 (chunk[16] - ∑ i : Fin 16, sk.key[i] * chunk[i.castSucc]) % s32 sk.modulo := by
  rw [decValue, modulus_eq_emod _ hq, wrap32_sub, wrap32_s32, wrap32_s32, dot16_eq_sum_mul]

/-- Settles O33: the two branches of DECCHUNK, a scalar value fitting its word. -/
theorem decchunkRoundsTheResidue : Obligations.DecchunkRoundsTheResidue := by
  intro s hkey
  have ⟨hq, hadd, _⟩ := hkey
  refine ⟨decValue s.sk s.arg, decScalar s.sk s.arg, decValue_eq_emod hq s.arg,
    Int.fdiv_eq_ediv_of_nonneg _ (by omega), fun hv => ⟨_, ?_, execDecchunk_ok hkey hv⟩, execDecchunk_scalar hkey⟩
  obtain ⟨hv₁, hv₂, -⟩ := hv
  exact s32_wrap32_of_range (by omega) (by omega)

/-! ## Nothing wraps with a generated pair (R553) -/

/-- Settles O52: a dot product of at most 2^30 and a last word in [0, q) keep their difference in a word. -/
theorem generatedChunksNeverWrapInDecchunk : Obligations.GeneratedChunksNeverWrapInDecchunk := by
  rintro sk pk js v ⟨hshape, e, hd⟩ hjs hv
  have hq := hshape.2.1
  have hpos := (keyOk_of_shape hshape).1
  obtain ⟨hlast₁, hlast₂⟩ := chunk_last_range hshape hd hjs hv
  obtain ⟨hexact, hdot⟩ := s32_dot16 (abs_key_le hshape) (fun c => (s32_chunk_coeff hd hjs v c).2) (by decide)
  obtain ⟨hdot₁, hdot₂⟩ := abs_le.1 hdot
  exact ⟨hexact, hdot, hlast₁, hlast₂, s32_wrap32_of_range (by omega) (by omega), modulus_nonneg _ hpos,
    modulus_lt _ hpos⟩

section GeneratedKey

variable {sk : SecretKey} {pk : PublicKey} {e : Fin 170 → Int} {js : List Nat} {v : Int}

/-! ## The summed noise (R551) -/

/-- The sum of noises of one range lies in that range, times their number. -/
theorem noiseSum_range {lo hi : Int} (hlt : ∀ j ∈ js, j < 170) (he : ∀ r, lo ≤ e r ∧ e r ≤ hi) :
    js.length * lo ≤ noiseSum e js ∧ noiseSum e js ≤ js.length * hi := by
  have hterm : ∀ x ∈ js.map fun j => if h : j < 170 then e ⟨j, h⟩ else 0, lo ≤ x ∧ x ≤ hi :=
    List.forall_mem_map.2 fun j hj => by rw [dif_pos (hlt j hj)]; exact he _
  have hlo := List.card_nsmul_le_sum _ lo fun x hx => (hterm x hx).1
  have hhi := List.sum_le_card_nsmul _ hi fun x hx => (hterm x hx).2
  rw [List.length_map, nsmul_eq_mul] at hlo hhi
  exact ⟨hlo, hhi⟩

/-- Without fuzz there is no noise. -/
theorem noiseSum_eq_zero (h : SkShape sk) (hd : DerivedWith sk pk e) (hjs : Sampled js)
    (hfuzz : Int.tdiv (s32 sk.add) 10 = 0) : noiseSum e js = 0 := by
  have hle := abs_noiseSum_le h hd hjs
  rw [hfuzz] at hle
  exact abs_nonpos_iff.1 hle

/-- The bound of the summed noise is less than half of `add`. -/
theorem two_mul_four_mul_fuzz_lt (h : SkShape sk) : 2 * (4 * Int.tdiv (s32 sk.add) 10) < s32 sk.add := by
  have hadd := (add_range_of_shape h).1
  rw [Int.tdiv_eq_ediv_of_nonneg (by omega)]
  omega

/-- Settles O53: the noises add up to less than half of `add`, which the rounding removes. -/
theorem chunkDecryptsToItsCharacter : Obligations.ChunkDecryptsToItsCharacter := by
  intro sk pk e js v hshape hd hjs hv
  refine ⟨noiseSum_eq_zero hshape hd hjs, fun hfuzz => ?_, abs_noiseSum_le hshape hd hjs,
    two_mul_four_mul_fuzz_lt hshape, decValue_encChunk hshape hd hjs hv, decScalar_encChunk hshape hd hjs hv⟩
  have hnoise (r : Fin 170) :
      -Int.tdiv (s32 sk.add) 10 ≤ e r ∧ e r ≤ Int.tdiv (s32 sk.add) 10 - 1 := by
    obtain ⟨-, ⟨hpos, -⟩, -⟩ := hd.2 r
    exact ⟨(hpos hfuzz).1, Int.le_sub_one_of_lt (hpos hfuzz).2⟩
  rw [← mul_neg]
  exact noiseSum_range (fun j => lt_of_sampled hjs) hnoise

/-! ## The two ends of the code space (R552) -/

/-- Twice the summed noise stays below `add` in magnitude. -/
theorem two_mul_noiseSum_range (h : SkShape sk) (hd : DerivedWith sk pk e) (hjs : Sampled js) :
    -s32 sk.add < 2 * noiseSum e js ∧ 2 * noiseSum e js < s32 sk.add := by
  have hle := abs_le.1 (abs_noiseSum_le h hd hjs)
  have hlt := two_mul_four_mul_fuzz_lt h
  constructor <;> omega

/-- The decrypted value is the number of [0, q) congruent to the scaled character under the noise. -/
theorem decValue_encChunk_of_dvd (h : SkShape sk) (hd : DerivedWith sk pk e) (hjs : Sampled js) (hv : IsScalar v)
    {value : Int} (h₀ : 0 ≤ value) (hlt : value < s32 sk.modulo)
    (hdvd : s32 sk.modulo ∣ v * s32 sk.add + noiseSum e js - value) : decValue sk (encChunk pk v js) = value := by
  have hq := (keyOk_of_shape h).1
  rw [decValue_encChunk h hd hjs hv, modulus_eq_of_dvd hq hdvd, modulus_eq_emod _ hq, Int.emod_eq_of_lt h₀ hlt]

/-- U+0000 under a negative noise sum `E` decrypts to the rounding of `q + E`, which is U+10FFFF or more. -/
theorem decScalar_encChunk_zero_of_neg (h : SkShape sk) (hd : DerivedWith sk pk e) (hjs : Sampled js)
    (hneg : noiseSum e js < 0) : 0x10FFFF ≤ decScalar sk (encChunk pk 0 js) := by
  obtain ⟨hadd₁, hadd₂, hadd₃⟩ := add_range_of_shape h
  have hnoise := (two_mul_noiseSum_range h hd hjs).1
  have hvalue : decValue sk (encChunk pk 0 js) = s32 sk.modulo + noiseSum e js :=
    decValue_encChunk_of_dvd h hd hjs (by decide) (by omega) (by omega) ⟨-1, by ring⟩
  have hadd : 0 < 2 * s32 sk.add := by omega
  rw [decScalar, hvalue, roundHalfUp, Int.fdiv_eq_ediv_of_nonneg _ hadd.le, Int.le_ediv_iff_mul_le hadd]
  omega

/-- U+10FFFF under a noise sum that carries it to `q` or beyond decrypts to the rounding of the excess, which is 0. -/
theorem decScalar_encChunk_top_of_le (h : SkShape sk) (hd : DerivedWith sk pk e) (hjs : Sampled js)
    (hle : s32 sk.modulo - 1114111 * s32 sk.add ≤ noiseSum e js) : decScalar sk (encChunk pk 0x10FFFF js) = 0 := by
  obtain ⟨hadd₁, hadd₂, hadd₃⟩ := add_range_of_shape h
  have hnoise := (two_mul_noiseSum_range h hd hjs).2
  have hvalue : decValue sk (encChunk pk 0x10FFFF js) = 1114111 * s32 sk.add + noiseSum e js - s32 sk.modulo :=
    decValue_encChunk_of_dvd h hd hjs (by decide) (by omega) (by omega) ⟨1, by ring⟩
  rw [decScalar, hvalue, roundHalfUp_eq_iff (by omega)]
  constructor <;> omega

/-- A noise sum that neither end carries out of [0, q) leaves every character as it was. -/
theorem decScalar_encChunk_of_ends (h : SkShape sk) (hd : DerivedWith sk pk e) (hjs : Sampled js) (hv : IsScalar v)
    (h0 : v = 0 → 0 ≤ noiseSum e js)
    (htop : v = 0x10FFFF → noiseSum e js < s32 sk.modulo - 1114111 * s32 sk.add) :
    decScalar sk (encChunk pk v js) = v := by
  obtain ⟨hadd₁, hadd₂, hadd₃⟩ := add_range_of_shape h
  obtain ⟨hnoise₁, hnoise₂⟩ := two_mul_noiseSum_range h hd hjs
  rcases eq_or_ne v 0 with rfl | hzero
  · have hE := h0 rfl
    exact decScalar_encChunk h hd hjs hv (by omega) (by omega)
  rcases eq_or_ne v 0x10FFFF with rfl | hmax
  · have hE := htop rfl
    exact decScalar_encChunk h hd hjs hv (by omega) (by omega)
  · exact decScalar_encChunk_of_inner h hd hjs hv hzero hmax

/-- Without fuzz `add` is 9, and the modulus has room above the last character. -/
theorem room_above_top_of_fuzz_zero (h : SkShape sk) (hfuzz : Int.tdiv (s32 sk.add) 10 = 0) :
    0 < s32 sk.modulo - 1114111 * s32 sk.add := by
  have hadd := (add_range_of_shape h).1
  have hq := h.2.1.1
  rw [Int.tdiv_eq_ediv_of_nonneg (by omega)] at hfuzz
  omega

end GeneratedKey

/-- Settles O54: the two ends where the noise leaves [0, q), every other case, and the case without noise. -/
theorem roundTripFailsOnlyAtTheTwoEnds : Obligations.RoundTripFailsOnlyAtTheTwoEnds := by
  intro sk pk e js v hshape hd hjs hv
  refine ⟨?zeroFails, ?topFails, fun h0 htop => ?others, fun hfuzz => ?noFuzz⟩
  case zeroFails =>
    rintro rfl hneg
    have hle := decScalar_encChunk_zero_of_neg hshape hd hjs hneg
    exact hle.eq_or_lt.imp Eq.symm fun hlt ⟨_, hmax, _⟩ => hlt.not_ge hmax
  case topFails =>
    rintro rfl hle
    exact decScalar_encChunk_top_of_le hshape hd hjs hle
  case others =>
    exact decScalar_encChunk_of_ends hshape hd hjs hv (fun hv₀ => not_lt.1 fun hneg => h0 ⟨hv₀, hneg⟩)
      fun hv₁ => not_le.1 fun hle => htop ⟨hv₁, hle⟩
  case noFuzz =>
    have hE := noiseSum_eq_zero hshape hd hjs hfuzz
    have hroom := room_above_top_of_fuzz_zero hshape hfuzz
    exact decScalar_encChunk_of_ends hshape hd hjs hv (fun _ => hE.ge) fun _ => by rwa [hE]

end Sys2Proof.Machine
end

section
/-! Proofs of the statements about NOP, the overrun flag and the access to the keys (44_key_access_and_control.md). -/

namespace Sys2Proof.Machine

open Sys2Proof.Safety

/-! ## NOP and the overrun flag (R600, R811) -/

/-- Every command but NOP completes with OVR as it was. -/
theorem exec_keeps_ovr {i : Instr} {s t : State} (hi : i ≠ .nop) (ht : exec i s = .next t) :
    t.status.ovr = s.status.ovr := by
  rcases exec_writes i s with
    ⟨c, h⟩ | ⟨hnop, -⟩ | ⟨-, k, f, h⟩ | ⟨-, k, f, h⟩ | ⟨-, chunk, f, h⟩ | ⟨-, w, h⟩
  case inr.inl => exact absurd hnop hi
  all_goals
    obtain rfl := Host.Outcome.next.inj (h.symm.trans ht)
    rfl

/-- A nonzero word with the OP of NOP is illegal (R301, R306). -/
theorem exists_decode_eq_illegal_of_op_zero {w : Word} (hop : w.toNat % 256 = 0) (hne : w ≠ 0) :
    ∃ why, decode w = .illegal why := by
  have hnat : w.toNat ≠ 0 := fun h => hne (BitVec.eq_of_toNat_eq h)
  rw [← opField_eq] at hop
  exact exists_decode_eq_illegal_of_op (by omega) (by omega)

/-- EXEC NOP on a ready block ends with DONE = 1 and the rest of STATUS 0. -/
theorem hostExec_nop {s : State} (hs : Ready s) :
    hostExec 0 s = (.ok (), { issue 0 s with status := ⟨false, true, .noError, false⟩ }) :=
  hostExec_commit (i := .nop) hs rfl rfl

/-- Settles O23: NOP's commit, the illegal words of its OP, the OVR of the other commands, and a lost NOP. -/
theorem nopCompletesAndAloneClearsOverrun : Obligations.NopCompletesAndAloneClearsOverrun := by
  refine ⟨decode_encode (i := .nop) rfl, fun s => rfl, fun s hop hne => ?_, fun i s t => exec_keeps_ovr,
    fun s ⟨hr, hb⟩ => memWrite_cmd_running 0 hr hb, fun s hs _ => ?_⟩
  · obtain ⟨why, hwhy⟩ := exists_decode_eq_illegal_of_op_zero hop hne
    exact completeCommand_of_illegal hwhy
  · have hword : Status.toWord ⟨false, true, .noError, false⟩ = 0x00000002 := by decide
    rw [hostExec_nop hs]
    exact hword

/-- An event of the outside world is a reset, or does not clear OVR. -/
theorem hostMove_reset_or_keeps_overrun (e : HostEvent) (rest : List HostEvent) {s : State} (ho : s.status.ovr = true) :
    (e = .assertReset ∨ (e = .deassertReset ∧ s.rst = true)) ∨ (hostMove e rest s).status.ovr = true := by
  rcases hostMove_cases e rest s with
    ⟨he, -⟩ | ⟨he, hr, -⟩ | ⟨f, p, rs, h⟩ | ⟨-, -, rs, h⟩ | ⟨-, -, w, rs, h⟩ | ⟨-, -, i, w, rs, h⟩
  · exact .inl (.inl he)
  · exact .inl (.inr ⟨he, hr⟩)
  · exact .inr (by rw [h]; exact ho)
  · exact .inr (by rw [h]; rfl)
  · exact .inr (by rw [h]; exact ho)
  · exact .inr (by rw [h]; exact ho)

/-- The completion of the latched word clears OVR only when the word is NOP. -/
theorem decode_eq_nop_of_completion_clears_overrun {s t : State} (ht : completeCommand s = .next t)
    (ho : t.status.ovr ≠ s.status.ovr) : decode s.cur = .command .nop := by
  cases hd : decode s.cur with
  | command i =>
    rw [completeCommand_of_decode hd] at ht
    by_contra hi
    exact ho (exec_keeps_ovr (fun h => hi (congrArg Decoded.command h)) ht)
  | illegal why =>
    rw [completeCommand_of_illegal hd] at ht
    obtain rfl := Host.Outcome.next.inj ht
    exact absurd rfl ho

/-- Settles O43: of the completions NOP alone clears OVR, and of the events of the outside world a reset alone. -/
theorem overrunStaysUntilNopOrReset : Obligations.OverrunStaysUntilNopOrReset := by
  intro s t ht hs ho
  have hne : t.status.ovr ≠ s.status.ovr := by rw [hs, ho]; decide
  rcases step_cases s with
    ⟨hr, hb, -, h⟩ | ⟨hr, -, n, e, rest, -, hp, h⟩ | ⟨-, e, rest, hp, h⟩ | ⟨-, -, h⟩ <;> rw [h] at ht
  · have hd := decode_eq_nop_of_completion_clears_overrun ht hne
    exact .inl ⟨⟨hr, hb⟩, hd, (completeCommand_of_decode hd).symm.trans ht⟩
  · obtain rfl := Host.Outcome.next.inj ht
    rcases hostMove_reset_or_keeps_overrun e rest (s := { s with latency := n }) hs with (rfl | ⟨-, hr'⟩) | ho'
    · exact .inr ⟨_, rest, hp, .inl rfl, rfl⟩
    · exact absurd (hr.symm.trans hr') (by decide)
    · exact absurd (ho.symm.trans ho') (by decide)
  · obtain rfl := Host.Outcome.next.inj ht
    rcases hostMove_reset_or_keeps_overrun e rest hs with he | ho'
    · exact .inr ⟨e, rest, hp, he, rfl⟩
    · exact absurd (ho.symm.trans ho') (by decide)
  · obtain rfl := Host.Outcome.next.inj ht
    exact absurd rfl hne

/-! ## The words of the two keys (R103, R104) -/

theorem SecretKey.exists_word? (k : SecretKey) {idx : Nat} (h : idx ≤ 18) : ∃ w, k.word? idx = some w :=
  Option.ne_none_iff_exists'.1 fun hnone => absurd ((k.word?_eq_none_iff idx).1 hnone) (by omega)

theorem PublicKey.exists_word? (k : PublicKey) {idx : Nat} (h : idx ≤ 2892) : ∃ w, k.word? idx = some w :=
  Option.ne_none_iff_exists'.1 fun hnone => absurd ((k.word?_eq_none_iff idx).1 hnone) (by omega)

/-- A write of a word of the SK file makes that word the new one and leaves the others. -/
theorem SecretKey.exists_setWord? (k : SecretKey) {idx : Nat} (h : idx ≤ 18) (v : Word) :
    ∃ k', k.setWord? idx v = some k' ∧ k'.word? idx = some v ∧ ∀ j, j ≠ idx → k'.word? j = k.word? j := by
  obtain ⟨k', hk⟩ := Option.ne_none_iff_exists'.1 fun hnone : k.setWord? idx v = none =>
    absurd ((k.setWord?_eq_none_iff idx v).1 hnone) (by omega)
  exact ⟨k', hk, (word?_of_setWord? hk idx).trans (if_pos rfl), fun j hj => (word?_of_setWord? hk j).trans (if_neg hj)⟩

/-- A write of a word of the PK store makes that word the new one and leaves the others. -/
theorem PublicKey.exists_setWord? (k : PublicKey) {idx : Nat} (h : idx ≤ 2892) (v : Word) :
    ∃ k', k.setWord? idx v = some k' ∧ k'.word? idx = some v ∧ ∀ j, j ≠ idx → k'.word? j = k.word? j := by
  obtain ⟨k', hk⟩ := Option.ne_none_iff_exists'.1 fun hnone : k.setWord? idx v = none =>
    absurd ((k.setWord?_eq_none_iff idx v).1 hnone) (by omega)
  exact ⟨k', hk, (word?_of_setWord? hk idx).trans (if_pos rfl), fun j hj => (word?_of_setWord? hk j).trans (if_neg hj)⟩

/-! ## One word read or written (R610, R611, R620, R621) -/

/-- Settles O34: the word at each index of the SK file, and none beyond 18. -/
theorem rdskReadsOneSecretWord : Obligations.RdskReadsOneSecretWord :=
  ⟨fun s _ h => execRdsk_ok (s.sk.word?_key h),
    fun s => ⟨execRdsk_ok s.sk.word?_16, execRdsk_ok s.sk.word?_17, execRdsk_ok s.sk.word?_18⟩,
    fun s idx h => execRdsk_index ((s.sk.word?_eq_none_iff idx).2 h)⟩

/-- Settles O35: the write of the word at the index, and none beyond 18. -/
theorem wrskWritesOneSecretWord : Obligations.WrskWritesOneSecretWord := by
  refine ⟨fun s idx h => ?_, fun s idx h => execWrsk_index ((s.sk.setWord?_eq_none_iff idx _).2 h)⟩
  obtain ⟨k, hk, hword, hothers⟩ := s.sk.exists_setWord? h s.arg[0]
  exact ⟨k, hword, hothers, execWrsk_ok hk⟩

/-- Settles O36: the word at each index of the PK store, and none beyond 2892. -/
theorem rdpkReadsOnePublicWord : Obligations.RdpkReadsOnePublicWord :=
  ⟨fun s r c => execRdpk_ok (s.pk.word?_row r.isLt c.isLt),
    fun s => ⟨execRdpk_ok s.pk.word?_2890, execRdpk_ok s.pk.word?_2891, execRdpk_ok s.pk.word?_2892⟩,
    fun s idx h => execRdpk_index ((s.pk.word?_eq_none_iff idx).2 h)⟩

/-- Settles O37: the write of the word at the index, and none beyond 2892. -/
theorem wrpkWritesOnePublicWord : Obligations.WrpkWritesOnePublicWord := by
  refine ⟨fun s idx h => ?_, fun s idx h => execWrpk_index ((s.pk.setWord?_eq_none_iff idx _).2 h)⟩
  obtain ⟨k, hk, hword, hothers⟩ := s.pk.exists_setWord? h s.arg[0]
  exact ⟨k, hword, hothers, execWrpk_ok hk⟩

/-! ## The loops of STORESK and STOREPK (R324)

One loop stores either key and one loads it, so both loops are treated for any file of `n` words, `word s j` being its
word `j` in the state `s`. -/

/-- EXEC of `read idx` leaves word `idx` of the file in RES[0], the keys and the file as they were. -/
def ReadsWords (read : Nat → Instr) (word : State → Nat → Option Word) (n : Nat) : Prop :=
  ∀ (s : State) (idx : Nat), Ready s → idx < n → ∃ t, hostExec (encode (read idx)) s = (.ok (), t) ∧
    word s idx = some t.res[0] ∧ Ready t ∧ t.sk = s.sk ∧ t.pk = s.pk ∧ word t = word s

/-- A command that commits a word to RES[0] alone makes EXEC succeed with that word, and leaves both keys. -/
theorem hostExec_of_result {i : Instr} {s : State} {w : Word} (hs : Ready s) (hi : i.wellFormed = true)
    (h : exec i (issue (encode i) s) = commit { issue (encode i) s with res := s.res.set 0 w }) :
    ∃ t, hostExec (encode i) s = (.ok (), t) ∧ t.res[0] = w ∧ Ready t ∧ t.sk = s.sk ∧ t.pk = s.pk :=
  ⟨_, hostExec_commit hs hi h, Vector.getElem_set_self _, ⟨hs.1, rfl⟩, rfl, rfl⟩

theorem readsWords_rdsk : ReadsWords .rdsk (fun s => s.sk.word?) 19 := by
  intro s idx hs hidx
  obtain ⟨w, hw⟩ := s.sk.exists_word? (show idx ≤ 18 by omega)
  obtain ⟨t, hexec, rfl, ht, hsk, hpk⟩ :=
    hostExec_of_result (i := .rdsk idx) hs (decide_eq_true (by omega)) (execRdsk_ok hw)
  exact ⟨t, hexec, hw, ht, hsk, hpk, congrArg SecretKey.word? hsk⟩

theorem readsWords_rdpk : ReadsWords .rdpk (fun s => s.pk.word?) 2893 := by
  intro s idx hs hidx
  obtain ⟨w, hw⟩ := s.pk.exists_word? (show idx ≤ 2892 by omega)
  obtain ⟨t, hexec, rfl, ht, hsk, hpk⟩ :=
    hostExec_of_result (i := .rdpk idx) hs (decide_eq_true (by omega)) (execRdpk_ok hw)
  exact ⟨t, hexec, hw, ht, hsk, hpk, congrArg PublicKey.word? hpk⟩

/-- The loop gives the `m` words of the file from word `i` on, and leaves the block ready with its keys. -/
theorem storeWords_of_readsWords {read : Nat → Instr} {word : State → Nat → Option Word} {n : Nat}
    (hread : ReadsWords read word n) {s : State} (hs : Ready s) {i m : Nat} (h : i + m ≤ n) :
    ∃ (ws : List Word) (t : State), storeWords read i m s = (.ok ws, t) ∧ ws.length = m ∧
      (∀ j, j < m → word s (i + j) = ws[j]?) ∧ Ready t ∧ t.sk = s.sk ∧ t.pk = s.pk := by
  induction m generalizing s i with
  | zero => exact ⟨[], s, rfl, rfl, fun j hj => absurd hj (Nat.not_lt_zero j), hs, rfl, rfl⟩
  | succ m ih =>
    obtain ⟨t, hexec, hword, ht, hsk, hpk, hfile⟩ := hread s i hs (by omega)
    obtain ⟨ws, u, hstore, hlen, hwords, hu, hsk', hpk'⟩ := ih ht (show i + 1 + m ≤ n by omega)
    refine ⟨t.res[0] :: ws, u, ?_, by rw [List.length_cons, hlen], fun j hj => ?_, hu, hsk'.trans hsk, hpk'.trans hpk⟩
    · simp only [storeWords, hexec, memRead_res (show 0 < 17 by decide) ht.1 ht.2, hstore]
    · cases j with
      | zero => exact hword
      | succ j =>
        rw [List.getElem?_cons_succ, ← hwords j (by omega), hfile]
        congr 1
        omega

/-! ## The loops of LOADSK and LOADPK (R323) -/

/-- ARG of a word and EXEC of `write idx` make it word `idx` of the file, and leave the other words and `other`. -/
def WritesWords {α : Type} (write : Nat → Instr) (word : State → Nat → Option Word) (other : State → α) (n : Nat) :
    Prop :=
  ∀ (s : State) (idx : Nat) (w : Word), Ready s → idx < n →
    ∃ t, hostExec (encode (write idx)) (memWrite (argOffset 0) w s) = (.ok (), t) ∧ word t idx = some w ∧
      (∀ j, j ≠ idx → word t j = word s j) ∧ Ready t ∧ other t = other s

/-- A command that commits a key makes ARG 0 and EXEC succeed with that key. -/
theorem hostExec_of_key {i : Instr} {s : State} {w : Word} {sk : SecretKey} {pk : PublicKey} (hs : Ready s)
    (hi : i.wellFormed = true)
    (h : exec i (issue (encode i) { s with arg := s.arg.set 0 w }) =
      commit { issue (encode i) { s with arg := s.arg.set 0 w } with sk := sk, pk := pk }) :
    ∃ t, hostExec (encode i) (memWrite (argOffset 0) w s) = (.ok (), t) ∧ Ready t ∧ t.sk = sk ∧ t.pk = pk := by
  rw [memWrite_arg (by decide) w hs.1 hs.2]
  exact ⟨_, hostExec_commit (s := { s with arg := s.arg.set 0 w }) hs hi h, ⟨hs.1, rfl⟩, rfl, rfl⟩

theorem writesWords_wrsk : WritesWords .wrsk (fun s => s.sk.word?) State.pk 19 := by
  intro s idx w hs hidx
  obtain ⟨k, hk, hword, hothers⟩ := s.sk.exists_setWord? (show idx ≤ 18 by omega) (s.arg.set 0 w)[0]
  obtain ⟨t, hexec, ht, rfl, hpk⟩ :=
    hostExec_of_key (i := .wrsk idx) hs (decide_eq_true (by omega)) (execWrsk_ok hk)
  exact ⟨t, hexec, hword.trans (congrArg some (Vector.getElem_set_self _)), hothers, ht, hpk⟩

theorem writesWords_wrpk : WritesWords .wrpk (fun s => s.pk.word?) State.sk 2893 := by
  intro s idx w hs hidx
  obtain ⟨k, hk, hword, hothers⟩ := s.pk.exists_setWord? (show idx ≤ 2892 by omega) (s.arg.set 0 w)[0]
  obtain ⟨t, hexec, ht, hsk, rfl⟩ :=
    hostExec_of_key (i := .wrpk idx) hs (decide_eq_true (by omega)) (execWrpk_ok hk)
  exact ⟨t, hexec, hword.trans (congrArg some (Vector.getElem_set_self _)), hothers, ht, hsk⟩

/-- The loop makes `ws` the words of the file from word `i` on, and leaves the words before them and `other`. -/
theorem loadWords_of_writesWords {α : Type} {write : Nat → Instr} {word : State → Nat → Option Word} {other : State → α}
    {n : Nat} (hwrite : WritesWords write word other n) {s : State} (hs : Ready s) {ws : List Word} {i : Nat}
    (h : i + ws.length ≤ n) :
    ∃ u, loadWords write i ws s = (.ok (), u) ∧ (∀ j, j < ws.length → word u (i + j) = ws[j]?) ∧
      (∀ j, j < i → word u j = word s j) ∧ other u = other s := by
  induction ws generalizing s i with
  | nil => exact ⟨s, rfl, fun j hj => absurd hj (Nat.not_lt_zero j), fun _ _ => rfl, rfl⟩
  | cons w ws ih =>
    rw [List.length_cons] at h
    obtain ⟨t, hexec, hword, hothers, ht, hother⟩ := hwrite s i w hs (by omega)
    obtain ⟨u, hload, hwords, hbefore, hother'⟩ := ih ht (i := i + 1) (by omega)
    refine ⟨u, by simp only [loadWords, hexec, hload], fun j hj => ?_, fun j hj => ?_, hother'.trans hother⟩
    · cases j with
      | zero => exact (hbefore i (by omega)).trans hword
      | succ j =>
        rw [List.getElem?_cons_succ, ← hwords j (Nat.lt_of_succ_lt_succ hj)]
        congr 1
        omega
    · rw [hbefore j (by omega), hothers j (by omega)]

/-! ## The bytes of a stored key (R612) -/

/-- The words that the loop over the whole file stores make any ready block's file that one, once they are loaded. -/
theorem storeWords_then_loadWords {α : Type} {read write : Nat → Instr} {word : State → Nat → Option Word}
    {other : State → α} {n : Nat} (hread : ReadsWords read word n) (hwrite : WritesWords write word other n) {s : State}
    (hs : Ready s) :
    ∃ (ws : List Word) (t : State), storeWords read 0 n s = (.ok ws, t) ∧ ws.length = n ∧
      Ready t ∧ t.sk = s.sk ∧ t.pk = s.pk ∧
      ∀ r, Ready r → ∃ u, loadWords write 0 ws r = (.ok (), u) ∧ (∀ j, j < n → word u j = word s j) ∧
        other u = other r := by
  obtain ⟨ws, t, hstore, rfl, hws, ht, hsk, hpk⟩ := storeWords_of_readsWords hread hs (Nat.zero_add n).le
  refine ⟨ws, t, hstore, rfl, ht, hsk, hpk, fun r hr => ?_⟩
  obtain ⟨u, hload, hwords, -, hother⟩ := loadWords_of_writesWords hwrite hr (Nat.zero_add ws.length).le
  refine ⟨u, hload, fun j hj => ?_, hother⟩
  have hsame := (hwords j hj).trans (hws j hj).symm
  rwa [Nat.zero_add] at hsame

theorem loadSk_bytesOfWords {ws : List Word} (h : ws.length = 19) (s : State) :
    loadSk (bytesOfWords ws) s = loadWords .wrsk 0 ws s := by
  rw [loadSk, if_pos (by rw [bytesOfWords_length, h]), wordsOfBytes_bytesOfWords]

theorem loadPk_bytesOfWords {ws : List Word} (h : ws.length = 2893) (s : State) :
    loadPk (bytesOfWords ws) s = loadWords .wrpk 0 ws s := by
  rw [loadPk, if_pos (by rw [bytesOfWords_length, h]), wordsOfBytes_bytesOfWords]

/-- Settles O58: the loops store and load every word of a key, and a key is its words. -/
theorem storedKeysLoadBackUnchanged : Obligations.StoredKeysLoadBackUnchanged := by
  intro s hs
  constructor
  · obtain ⟨ws, t, hstore, hlen, ht, hsk, hpk, hload⟩ := storeWords_then_loadWords readsWords_rdsk writesWords_wrsk hs
    refine ⟨bytesOfWords ws, t, by rw [storeSk, hstore]; rfl, by rw [bytesOfWords_length, hlen], ht, hsk, hpk,
      fun r hr => ?_⟩
    obtain ⟨u, hu, hwords, hother⟩ := hload r hr
    exact ⟨u, (loadSk_bytesOfWords hlen r).trans hu, SecretKey.ext_words fun j hj => hwords j (by omega), hother⟩
  · obtain ⟨ws, t, hstore, hlen, ht, hsk, hpk, hload⟩ := storeWords_then_loadWords readsWords_rdpk writesWords_wrpk hs
    refine ⟨bytesOfWords ws, t, by rw [storePk, hstore]; rfl, by rw [bytesOfWords_length, hlen], ht, hsk, hpk,
      fun r hr => ?_⟩
    obtain ⟨u, hu, hwords, hother⟩ := hload r hr
    exact ⟨u, (loadPk_bytesOfWords hlen r).trans hu, PublicKey.ext_words fun j hj => hwords j (by omega), hother⟩

end Sys2Proof.Machine
end

section
/-! Proofs of the statements about errors, and that the machine never stops (60_exceptions.md). -/

namespace Sys2Proof.Machine

open Sys2Proof.Safety

/-! ## What an error completion writes (R710) -/

/-- Settles O38: a commit leaves ERR_NONE, so an error code is left by the error entry alone, which writes STATUS. -/
theorem errorCompletionWritesOnlyStatus : Obligations.ErrorCompletionWritesOnlyStatus := by
  intro s t ht herr
  rcases completeCommand_cases s with ⟨c, -, h⟩ | ⟨res, sk, pk, ovr, fresh, h⟩ <;>
    obtain rfl := Host.Outcome.next.inj (h.symm.trans ht)
  · rfl
  · exact absurd rfl herr

/-! ## The order of the checks (R703) -/

/-- A latched command that takes the error entry completes with its code. -/
theorem completeCommand_of_exec_error {s : State} {i : Instr} {c : ErrCode} (hd : decode s.cur = .command i)
    (h : exec i s = raiseCmdError c s) :
    completeCommand s = .next { s with status := ⟨false, true, c, s.status.ovr⟩ } :=
  (completeCommand_of_decode hd).trans h

/-- Settles O39: each check is the first its command makes, or follows the key check that the state passes. -/
theorem errorsAreReportedInPriorityOrder : Obligations.ErrorsAreReportedInPriorityOrder := by
  refine fun s => ⟨fun why => completeCommand_of_illegal, fun idx hidx hd => ?_, fun idx hidx hd => ?_,
    fun hd h => completeCommand_of_exec_error hd (execModred_param h),
    fun hd h => completeCommand_of_exec_error hd (execPkgenFrom_param _ h),
    fun hd h => completeCommand_of_exec_error hd (execEnccharFrom_param _ h),
    fun hd h hv => completeCommand_of_exec_error hd (execEnccharFrom_badChar _ h hv),
    fun hd h => completeCommand_of_exec_error hd (execDecchunk_param h),
    fun hd h hv => completeCommand_of_exec_error hd (execDecchunk_scalar h hv)⟩
  · rcases hd with hd | hd
    · exact completeCommand_of_exec_error hd (execRdsk_index ((s.sk.word?_eq_none_iff idx).2 hidx))
    · exact completeCommand_of_exec_error hd (execWrsk_index ((s.sk.setWord?_eq_none_iff idx _).2 hidx))
  · rcases hd with hd | hd
    · exact completeCommand_of_exec_error hd (execRdpk_index ((s.pk.word?_eq_none_iff idx).2 hidx))
    · exact completeCommand_of_exec_error hd (execWrpk_index ((s.pk.setWord?_eq_none_iff idx _).2 hidx))

/-! ## How long an error code stays (R108, R711) -/

/-- An event of the outside world is a reset, or leaves ERR and DONE, or is the issue of a command by a ready block. -/
theorem hostMove_reset_or_keeps_err_or_issues (e : HostEvent) (rest : List HostEvent) (s : State) :
    (e = .assertReset ∨ (e = .deassertReset ∧ s.rst = true)) ∨
    ((hostMove e rest s).status.err = s.status.err ∧ (hostMove e rest s).status.done = s.status.done) ∨
    (Ready s ∧ Running (hostMove e rest s) ∧ (hostMove e rest s).status.err = .noError ∧
      (hostMove e rest s).status.done = false) := by
  rcases hostMove_cases e rest s with
    ⟨he, -⟩ | ⟨he, hr, -⟩ | ⟨f, p, rs, h⟩ | ⟨-, -, rs, h⟩ | ⟨hr, hb, w, rs, h⟩ | ⟨-, -, i, w, rs, h⟩
  · exact .inl (.inl he)
  · exact .inl (.inr ⟨he, hr⟩)
  · exact .inr (.inl (by rw [h]; exact ⟨rfl, rfl⟩))
  · exact .inr (.inl (by rw [h]; exact ⟨rfl, rfl⟩))
  · exact .inr (.inr (by rw [h]; exact ⟨⟨hr, hb⟩, ⟨hr, rfl⟩, rfl, rfl⟩))
  · exact .inr (.inl (by rw [h]; exact ⟨rfl, rfl⟩))

/-- Settles O40: with no command in progress a step is an event of the outside world, or nothing. -/
theorem errorCodeStaysUntilTheNextIssue : Obligations.ErrorCodeStaysUntilTheNextIssue := by
  intro s t hs ht
  rcases step_cases s with ⟨hr, hb, -⟩ | ⟨hr, hb, -⟩ | ⟨-, e, rest, hp, h⟩ | ⟨-, -, h⟩
  · exact absurd ⟨hr, hb⟩ hs
  · exact absurd ⟨hr, hb⟩ hs
  · obtain rfl := Host.Outcome.next.inj (h.symm.trans ht)
    rcases hostMove_reset_or_keeps_err_or_issues e rest s with he | hkeeps | hissues
    · exact .inr (.inr ⟨e, rest, hp, he, rfl⟩)
    · exact .inl hkeeps
    · exact .inr (.inl hissues)
  · obtain rfl := Host.Outcome.next.inj (h.symm.trans ht)
    exact .inl ⟨rfl, rfl⟩

/-! ## The machine never stops (R710, R712, R721) -/

/-- Settles O45: a completion ends in a next state, whatever word is latched, and so does an event or its absence. -/
theorem everyStateHasANextState : Obligations.EveryStateHasANextState := by
  intro s
  rcases step_cases s with ⟨-, -, -, h⟩ | ⟨-, -, n, e, rest, -, -, h⟩ | ⟨-, e, rest, -, h⟩ | ⟨-, -, h⟩
  · obtain ⟨t, ht, -⟩ := completeCommand_next s
    exact ⟨t, h.trans ht⟩
  · exact ⟨_, h⟩
  · exact ⟨_, h⟩
  · exact ⟨_, h⟩

end Sys2Proof.Machine
end

section
/-! Proofs of the statements about the reset input and the end of a command (70_reset_and_hazards.md). -/

namespace Sys2Proof.Machine

open Sys2Proof.Safety

/-! ## The reset input (R801) -/

/-- While RST is asserted the engine is idle, and a step is the host's turn. -/
theorem step_of_rst {s : State} (hr : s.rst = true) : step s = .next (hostTurn s) := by
  simp [step, advance, engineIdle, hr]

/-- Deasserting an RST that is asserted puts every register at its reset value. -/
theorem hostMove_deassertReset {s : State} (rest : List HostEvent) (hr : s.rst = true) :
    hostMove .deassertReset rest s = resetRegisters false { s with pending := rest } := if_pos hr

/-- Settles O7: with RST asserted the window is dead and the engine idle, and both edges of RST reset the registers. -/
theorem resetInputHoldsAndClearsTheBlock : Obligations.ResetInputHoldsAndClearsTheBlock := by
  refine ⟨fun s off v hr => ⟨memWrite_of_rst off v hr, memRead_of_rst off hr⟩, fun s hr hp => ?_,
    fun s e rest hr hp => ?_, fun s rest => ⟨rfl, rfl⟩, fun s rest hr => ?_⟩
  · rw [step_of_rst hr, hostTurn, hp]
  · rw [step_of_rst hr, hostTurn, hp]
  · exact ⟨0, s.fresh, rest, s.responses, hostMove_deassertReset rest hr⟩

/-! ## The end of a command in progress (R820)

The latency of a running command falls at every step that does not end it, so the bound is an induction on it. -/

/-- An event of the host either abandons the command in progress, by the assertion of RST, or leaves it running with its
latency. -/
theorem hostMove_running (e : HostEvent) (rest : List HostEvent) {s : State} (hs : Running s) :
    (hostMove e rest s).status.busy = false ∨
      (Running (hostMove e rest s) ∧ (hostMove e rest s).latency = s.latency) := by
  by_cases he : e = .assertReset
  · subst he
    exact .inl rfl
  · obtain ⟨ovr, f, p, rs, -, h⟩ := hostAccessDuringCommandChangesOnlyOverrun s e rest hs he
    rw [h]
    exact .inr ⟨hs, rfl⟩

/-- A step of a running command ends it or uses up one of its latency. -/
theorem step_running {s : State} (hs : Running s) :
    ∃ t, step s = .next t ∧ (t.status.busy = false ∨ (Running t ∧ t.latency + 1 = s.latency)) := by
  rcases step_cases s with ⟨-, -, -, h⟩ | ⟨-, -, n, e, rest, hl, -, h⟩ | ⟨hidle, -⟩ | ⟨hidle, -⟩
  · obtain ⟨t, ht, hb, -⟩ := completeCommand_next s
    exact ⟨t, h.trans ht, .inl hb⟩
  · have hmove := hostMove_running e rest (s := { s with latency := n }) hs
    exact ⟨_, h, hmove.imp_right fun ⟨hrun, hlat⟩ => ⟨hrun, by rw [hlat, hl]⟩⟩
  · simp [hs.1, hs.2] at hidle
  · simp [hs.1, hs.2] at hidle

theorem run_succ_of_step {s t : State} (h : step s = .next t) (k : Nat) :
    Host.Core.run Sys2Proof.core (k + 1) s = Host.Core.run Sys2Proof.core k t := by
  simp only [Host.Core.run, show Sys2Proof.core.step s = .next t from h]

/-- Settles O46, by induction on the latency: each step ends the command or leaves a running one of less latency. -/
theorem everyIssuedCommandEnds : Obligations.EveryIssuedCommandEnds := by
  intro s hs
  induction hn : s.latency generalizing s with
  | zero =>
    obtain ⟨t, ht, hb | ⟨-, hlat⟩⟩ := step_running hs
    · exact ⟨1, t, le_rfl, run_succ_of_step ht 0, hb⟩
    · omega
  | succ n ih =>
    obtain ⟨t, ht, hb | ⟨hrun, hlat⟩⟩ := step_running hs
    · exact ⟨1, t, by omega, run_succ_of_step ht 0, hb⟩
    · obtain ⟨k, u, hk, hu, hbu⟩ := ih t hrun (by omega)
      exact ⟨k + 1, u, by omega, (run_succ_of_step ht k).trans hu, hbu⟩

end Sys2Proof.Machine
end
